-- ==== Sys2Proof/Word.lean ====
section
/-! DEFINITION. The widths the spec names (spec/00_scope.md R9, R12): `u8` for levels, duties and the tick
counter, `u11` for a hue, `u32` for a command word and for the port `res`. Every quantity is unsigned. -/

namespace Sys2Proof

/-- `u8`: a level, a duty, the tick counter, an address of the Dimming Curve ROM (R9, R12). -/
abbrev Byte := BitVec 8

/-- `u11`: the field `hue` of a `CONV` word (R62). The values 1536 to 2047 fit and are out of range (R68). -/
abbrev HueField := BitVec 11

/-- `u32`: a command word (R61), or the port `res` (R60). -/
abbrev Word32 := BitVec 32

end Sys2Proof
end

