-- ==== Sys2Proof/Syntax.lean ====
section
/-! DEFINITION. The six operations of the block (spec/30_encoding.md R65, spec/opcode_table.json), what its input
ports can carry (R60), and the four channels. -/

namespace Sys2Proof

/-- The four output channels (spec/00_scope.md R9, R14), in the tuple's order r, g, b, w. -/
inductive Channel where
  | r | g | b | w
deriving DecidableEq, Repr

/-- The operations of R65, one constructor per row of the opcode table. `NOP`, `CONV`, `PUB` and `PUBC` are
command words; `TICK` and `RESET` are the strobes of two further input ports. -/
inductive Instr where
  /-- `NOP` (R110). -/
  | nop
  /-- `CONV hue, sat, val` (R80). The field `hue` can carry values that the operation refuses (R68). -/
  | conv (hue : HueField) (sat val : Byte)
  /-- `PUB` (R111). -/
  | pub
  /-- `PUBC ch` (R112). -/
  | pubc (ch : Channel)
  /-- `TICK` (R120). -/
  | tick
  /-- `RESET` (R175). -/
  | reset
deriving DecidableEq, Repr

/-- What one input port presents as one operation (R65): a command word on `cmd`, or the level of a 1-bit strobe
port. It is what the decoder reads. -/
inductive PortWord where
  /-- The word on `cmd` in a sampling with `cmd_valid = 1` (R60, R61). -/
  | cmd (w : Word32)
  /-- The level of the port `tick` (R69). -/
  | tick (level : BitVec 1)
  /-- The level of the port `rst` (R70). -/
  | rst (level : BitVec 1)
deriving DecidableEq, Repr

/-- One sampling of the input ports (R60, R71). -/
structure Sampling where
  /-- Port `rst`. -/
  rst : Bool
  /-- Port `tick`. -/
  tick : Bool
  /-- Port `cmd_valid`. -/
  cmdValid : Bool
  /-- Port `cmd`, ignored when `cmd_valid = 0`. -/
  cmd : Word32
deriving DecidableEq, Repr

end Sys2Proof
end

