-- ==== Sys2Proof/Machine/State.lean ====
section
/-! DEFINITION. The state of the block (spec/10_state.md R20, R38), the state after reset (R36), and the ways a step
can stop. -/

namespace Sys2Proof.Machine

/-- Four like things, one per channel (spec/00_scope.md R14). -/
structure PerChannel (α : Type) where
  r : α
  g : α
  b : α
  w : α
deriving DecidableEq, Repr

/-- The whole state (R20), and the port samplings still to come. -/
structure State where
  /-- `RES`: the last conversion result (R21). -/
  res : PerChannel Byte
  /-- `DUTY`: the shared duty-cycle registers (R22). -/
  duty : PerChannel Byte
  /-- `TICKCNT`: the tick counter (R25). -/
  tickcnt : Byte
  /-- `OUT`: the output registers, true is high (R26). -/
  out : PerChannel Bool
  /-- NOT a register of the block: the port samplings (R71) that the outside world presents and the block has not
  taken yet, oldest first. DESIGN CHOICE, assumption log 1. -/
  inputs : List Sampling
deriving DecidableEq, Repr

/-- The reasons a step faults: NONE. "The set of exception causes is empty" (spec/60_exceptions.md R150), so there is
no constructor, nobody raises one, and the type says so. Safe: it adds no stop and hides none. -/
inductive Fault where
deriving DecidableEq, Repr

/-- The reasons a step has no next state. -/
inductive Refusal where
  /-- Raised by an arm of `exec` whose operation has no meaning yet; no arm is left that raises it. Safe. -/
  | notModelled (mnemonic : String)
  /-- Raised by `CONV` with `hue` in 1536..2047: "the rules give it no next state" (spec/40_convert.md R108, U1).
  Safe: nothing is claimed of what the block does there. -/
  | hueOutOfRange (hue : HueField)
deriving DecidableEq, Repr

/-- What a step, or a meaning, answers. -/
abbrev Result := Host.Outcome State Fault Refusal

/-- The state after reset (R36): every register 0, the outputs low. No sampling waits (DESIGN CHOICE, log 1). -/
def State.reset : State where
  res := ⟨0, 0, 0, 0⟩
  duty := ⟨0, 0, 0, 0⟩
  tickcnt := 0
  out := ⟨false, false, false, false⟩
  inputs := []

end Sys2Proof.Machine
end

