-- ==== Sys2Proof/WellFormed.lean ====
section
/-! DEFINITION. Which operations have operands in their declared ranges (spec/30_encoding.md R65, R68). The one
constraint is `hue <= 1535`; `sat`, `val` and `ch` cannot be out of range (R63, R68). -/

namespace Sys2Proof

/-- The largest hue the converter's contract admits: `hue: 0..1535` (spec/00_scope.md R9, R68). -/
def maxHue : Nat := 1535

/-- The operands lie in their declared ranges (R65: `hue <= 1535`). -/
def Instr.wellFormed : Instr → Bool
  | .nop => true
  | .conv hue _ _ => decide (hue.toNat ≤ maxHue)
  | .pub => true
  | .pubc _ => true
  | .tick => true
  | .reset => true

end Sys2Proof
end

