-- ==== Sys2Proof/Machine/Operands.lean ====
section
/-! DEFINITION. Operand forms (spec/30_encoding.md R66): every operand is one contiguous unsigned field. Inside `CONV`
the hue is split into sextant and fraction (spec/40_convert.md R82, R87). -/

namespace Sys2Proof.Machine

/-- `sextant = hue >> 8` (R82). -/
def sextant (hue : HueField) : Nat := hue.toNat >>> 8

/-- `fraction = hue mod 256` (R82). -/
def fraction (hue : HueField) : Nat := hue.toNat % 256

/-- `parity = sextant mod 2` (R87): 0 in the even sextants, 1 in the odd ones. -/
def parity (hue : HueField) : Nat := sextant hue % 2

end Sys2Proof.Machine
end

