-- ==== Sys2Proof/Config.lean ====
section
/-! DEFINITION. The configuration of the block: what is fixed for one machine and is no state
(spec/00_scope.md R10, spec/10_state.md R20, R27, R38). -/

namespace Sys2Proof

/-- Adding one below 255 does not wrap: the identity table is non-decreasing. It shows that R27 can be met. -/
theorem byte_ofNat_le_succ (i : Nat) (h : i < 255) :
    BitVec.ofNat 8 i ≤ BitVec.ofNat 8 (i + 1) := by
  simp [BitVec.le_def]; omega

/-- The Dimming Curve ROM `CURVE` (R27, R40): 256 bytes, read-only, with the three constraints of R27.
The contents are in no source (N2), so a curve is ANY table together with the proofs of the constraints (U3).
The default values only make the deriving clause find that some curve exists; no definition takes them. -/
structure DimmingCurve where
  /-- The byte at each of the 256 addresses. -/
  table : Byte → Byte := id
  /-- `CURVE[0] = 0` (R27 b). -/
  first : table 0 = 0 := by rfl
  /-- `CURVE[255] = 255` (R27 c). -/
  last : table 255 = 255 := by rfl
  /-- `CURVE[i] <= CURVE[i+1]` for every `i` in 0..254 (R27 a). -/
  rising : ∀ i : Nat, i < 255 → table (BitVec.ofNat 8 i) ≤ table (BitVec.ofNat 8 (i + 1)) := by
    exact byte_ofNat_le_succ
deriving Inhabited

/-- `MONO_MODE` (R10, R98, R99): what `CONV` does at `val = 0` and at `sat = 0`. -/
inductive MonoMode where
  /-- No special case: the general computation for every input (R98), the default and authoritative behaviour. -/
  | fallThrough
  /-- The two short-circuit results of R99. -/
  | shortCircuit
deriving DecidableEq, Repr

/-- The configuration record of R38. -/
structure Config where
  /-- The ROM contents (R27). -/
  curve : DimmingCurve
  /-- The parameter `MONO_MODE` (R98, R99). -/
  monoMode : MonoMode

/-- The contents of this board's Dimming Curve: OPEN in the spec (R10, D4), so a constant nothing can evaluate,
of which only R27 is known. Assumption log 4. -/
opaque Config.boardCurve : DimmingCurve

end Sys2Proof
end

