-- ==== Sys2Proof/Machine/Ops.lean ====
section
/-! DEFINITION. The named operations over registers, the ROM and the output ports (spec/00_scope.md R14, R15,
spec/10_state.md R28). The block takes no exception (spec/60_exceptions.md R150, R160, R161), so there is no exception
entry and no return to define. -/

namespace Sys2Proof.Machine

/-- Reading one register of a file by channel: `RES[c]`, `DUTY[c]`, `OUT[c]` (R14). -/
def PerChannel.get {α : Type} (q : PerChannel α) : Channel → α
  | .r => q.r
  | .g => q.g
  | .b => q.b
  | .w => q.w

/-- Writing one register of a file by channel; the other three keep their values (R14). -/
def PerChannel.set {α : Type} (q : PerChannel α) (c : Channel) (v : α) : PerChannel α :=
  match c with
  | .r => { q with r := v }
  | .g => { q with g := v }
  | .b => { q with b := v }
  | .w => { q with w := v }

/-- The same operation on each of the four channels. -/
def PerChannel.map {α β : Type} (f : α → β) (q : PerChannel α) : PerChannel β :=
  ⟨f q.r, f q.g, f q.b, f q.w⟩

/-- One value in all four channels. -/
def PerChannel.all {α : Type} (v : α) : PerChannel α := ⟨v, v, v, v⟩

/-- `RES <- q`, all four registers in one step (R21). -/
def State.withRes (s : State) (q : PerChannel Byte) : State := { s with res := q }

/-- `DUTY <- q`, all four registers in one step (R22). -/
def State.withDuty (s : State) (q : PerChannel Byte) : State := { s with duty := q }

/-- `TICKCNT <- c` (R25). -/
def State.withTickcnt (s : State) (c : Byte) : State := { s with tickcnt := c }

/-- `OUT <- q`, all four registers in one step (R26, R129). -/
def State.withOut (s : State) (q : PerChannel Bool) : State := { s with out := q }

/-- The samplings still to come (assumption log 1). -/
def State.withInputs (s : State) (ps : List Sampling) : State := { s with inputs := ps }

/-- The assignments of `RESET` (spec/70_reset_and_hazards.md R175): the values of R36 in every register. What the
outside world presents next is no register and stays (assumption log 18). -/
def State.clearRegisters (s : State) : State :=
  (((s.withRes (.all 0)).withDuty (.all 0)).withTickcnt 0).withOut (.all false)

/-- `MemRead(a, 1)` (R15, R41): the ROM byte at an address. Total, deterministic, without side effect. -/
def romRead (curve : DimmingCurve) (a : Byte) : Byte := curve.table a

/-- The configuration the machine runs with: the board's open curve (log 4) and the authoritative `MONO_MODE`
(spec/40_convert.md R98, log 5). -/
def machineConfig : Config := ⟨Config.boardCurve, .fallThrough⟩

/-- The byte the board's ROM holds at an address. -/
def romByte (a : Byte) : Byte := romRead machineConfig.curve a

/-- Port `out[3:0]` (R28, R60): bit `n` is the output register of channel number `n`. -/
def State.outPort (s : State) : BitVec 4 :=
  BitVec.ofBool s.out.w ++ BitVec.ofBool s.out.b ++ BitVec.ofBool s.out.g ++ BitVec.ofBool s.out.r

/-- A register file as one 32-bit word, `r` in bits 31:24 down to `w` in bits 7:0 (spec/20_memory.md R42). -/
def PerChannel.word (q : PerChannel Byte) : Word32 := q.r ++ q.g ++ q.b ++ q.w

/-- Port `res[31:0]` (R28, R60). -/
def State.resPort (s : State) : Word32 := s.res.word

end Sys2Proof.Machine
end

