-- ==== Sys2Proof/Machine/Kernel.lean ====
section
/-! DEFINITION. The arithmetic of the converter (spec/40_convert.md R82 to R99), one definition per rule. Numbers are
naturals: every operation of these rules is exact (R107), no intermediate exceeds 16 bits (R104), and an index is
narrowed once, when it becomes a ROM address. The three functions `bot`, `fscale` and `rmp` are the spec's decision D2,
which it takes from general knowledge (G1): assumption log 6. -/

namespace Sys2Proof.Machine

/-- `BOT(val, sat)` (R84): the bottom index. -/
def bot (val sat : Nat) : Nat :=
  let p := val * (255 - sat)
  let w1 := p + 1
  let w2 := w1 + (w1 >>> 8)
  w2 >>> 8

/-- `FRAW(sat, fraction, parity)` (R88 in an even sextant, R89 in an odd one). -/
def fraw (sat fraction parity : Nat) : Nat :=
  if parity = 0 then sat * (256 - fraction) else sat * fraction

/-- `FSCALE(F)` (R90): the scaled ramp fraction. -/
def fscale (f : Nat) : Nat :=
  let f1 := f + (f >>> 8)
  f1 >>> 8

/-- `RMP(val, fs)` (R91, R92): the ramp index. -/
def rmp (val fs : Nat) : Nat :=
  let nf := 255 - fs
  let x := val * nf + (val >>> 1)
  x >>> 8

/-- The three levels of a conversion (R83, R85, R93), before or after the lookup. -/
structure Levels (α : Type) where
  top : α
  ramp : α
  bottom : α
deriving DecidableEq, Repr

/-- The same operation on each of the three levels. -/
def Levels.map {α β : Type} (f : α → β) (l : Levels α) : Levels β := ⟨f l.top, f l.ramp, f l.bottom⟩

/-- `top_idx` (R83), `ramp_idx` (R87 to R92) and `bottom_idx` (R84). -/
def indexLevels (hue : HueField) (sat val : Byte) : Levels Nat where
  top := val.toNat
  ramp := rmp val.toNat (fscale (fraw sat.toNat (fraction hue) (parity hue)))
  bottom := bot val.toNat sat.toNat

/-- The ROM addresses of the three levels; every index lies in 0..255 (R103 k). -/
def addressLevels (hue : HueField) (sat val : Byte) : Levels Byte :=
  (indexLevels hue sat val).map (BitVec.ofNat 8)

/-- Which level a channel gets (R94's "tagged roles"). -/
inductive Role where
  | top | ramp | bottom
deriving DecidableEq, Repr

/-- The level of a role. -/
def Levels.ofRole {α : Type} (l : Levels α) : Role → α
  | .top => l.top
  | .ramp => l.ramp
  | .bottom => l.bottom

/-- The channel table of R94, white always the bottom level (R95). Sextants 6 and 7 have no row. -/
def roleRow : Nat → Option (PerChannel Role)
  | 0 => some ⟨.top, .ramp, .bottom, .bottom⟩
  | 1 => some ⟨.ramp, .top, .bottom, .bottom⟩
  | 2 => some ⟨.bottom, .top, .ramp, .bottom⟩
  | 3 => some ⟨.bottom, .ramp, .top, .bottom⟩
  | 4 => some ⟨.ramp, .bottom, .top, .bottom⟩
  | 5 => some ⟨.top, .bottom, .ramp, .bottom⟩
  | _ => none

/-- `assign(sextant, top, ramp, bottom)` (R94) for one row of the table. -/
def assign {α : Type} (row : PerChannel Role) (l : Levels α) : PerChannel α := row.map l.ofRole

/-- The three levels after the lookup in the ROM (R83, R85, R93). -/
def dutyLevels (curve : DimmingCurve) (hue : HueField) (sat val : Byte) : Levels Byte :=
  (addressLevels hue sat val).map (romRead curve)

/-- The index tuple of a hue in range: what the ROM is read at, by channel (spec/95_test_vectors.md, conventions). -/
def indexTuple (hue : HueField) (sat val : Byte) : Option (PerChannel Nat) :=
  match roleRow (sextant hue) with
  | none => none
  | some row => some (assign row (indexLevels hue sat val))

/-- The result for a row of the table: the general computation (R97, R98), or R99's two special cases before it. -/
def convertRow (cfg : Config) (row : PerChannel Role) (hue : HueField) (sat val : Byte) : PerChannel Byte :=
  match cfg.monoMode with
  | .fallThrough => assign row (dutyLevels cfg.curve hue sat val)
  | .shortCircuit =>
    if val = 0 then .all 0
    else if sat = 0 then .all val
    else assign row (dutyLevels cfg.curve hue sat val)

/-- `convert(CURVE, MONO_MODE, hue, sat, val)` (R97, R99). It has a value exactly for `hue` in 0..1535 (R108). -/
def convert (cfg : Config) (hue : HueField) (sat val : Byte) : Option (PerChannel Byte) :=
  match roleRow (sextant hue) with
  | none => none
  | some row => some (convertRow cfg row hue sat val)

/-- The addresses of the three level lookups; their order cannot be observed (spec/20_memory.md R44). -/
def levelAddresses (hue : HueField) (sat val : Byte) : List Byte :=
  [(addressLevels hue sat val).top, (addressLevels hue sat val).bottom, (addressLevels hue sat val).ramp]

/-- The addresses a `CONV` reads in the ROM (spec/20_memory.md R44): three, or none in R99's special cases. -/
def romAddresses (mode : MonoMode) (hue : HueField) (sat val : Byte) : List Byte :=
  match mode with
  | .fallThrough => levelAddresses hue sat val
  | .shortCircuit => if val = 0 ∨ sat = 0 then [] else levelAddresses hue sat val

end Sys2Proof.Machine
end

