-- ==== Sys2Proof/Machine/Convert.lean ====
section
/-! DEFINITION. The converter family: `CONV` (spec/40_convert.md R80, R108). -/

namespace Sys2Proof.Machine

/-- `CONV` under a configuration: the four bytes of the conversion into `RES` in one step (R80); a hue out of range
has no next state (R108). -/
def execConvUnder (cfg : Config) (hue : HueField) (sat val : Byte) (s : State) : Result :=
  match convert cfg hue sat val with
  | some q => .next (s.withRes q)
  | none => .refused (.hueOutOfRange hue)

/-- `CONV hue, sat, val` (R80). -/
def execConv (hue : HueField) (sat val : Byte) (s : State) : Result :=
  execConvUnder machineConfig hue sat val s

end Sys2Proof.Machine
end

