-- ==== Sys2Proof/Decode.lean ====
section
/-! DEFINITION. Decoder and encoder (spec/30_encoding.md R61 to R70). The decoder is total on everything a port can
present and names every word it rejects; a rejected command word is reserved, and the block then takes a step that
changes nothing (R67). The encoder is written from the same formats. -/

namespace Sys2Proof

/-- Why a port word selects no operation. The first five are the reserved command words of R67, the last is a strobe
port at level 0 (R69, R70). None of them stops the machine. -/
inductive Reject where
  /-- `op` in 0x4 to 0xF. -/
  | reservedOpcode (op : BitVec 4)
  /-- `op = 0x0` with any of bits 27:0 set. -/
  | nopReservedBits
  /-- `op = 0x1` with bit 27 set. -/
  | convReservedBit
  /-- `op = 0x2` with any of bits 27:0 set. -/
  | pubReservedBits
  /-- `op = 0x3` with any of bits 27:2 set. -/
  | pubcReservedBits
  /-- A strobe port at level 0: no step of that port. -/
  | strobeLow
deriving DecidableEq, Repr

/-- What the decoder answers. -/
inductive Decoded where
  | operation (i : Instr)
  | rejected (why : Reject)
deriving DecidableEq, Repr

/-- The channel number of R63: 0 = r, 1 = g, 2 = b, 3 = w. -/
def Channel.number : Channel → BitVec 2
  | .r => 0
  | .g => 1
  | .b => 2
  | .w => 3

/-- The channel with a number; every value of `ch` is legal (R63). -/
def Channel.ofNumber (n : BitVec 2) : Channel :=
  if n = 0 then .r else if n = 1 then .g else if n = 2 then .b else .w

/-- The opcode field `op = cmd[31:28]` of every format (R61). -/
def opField (w : Word32) : BitVec 4 := w.extractLsb' 28 4

/-- Format Z (R64): bits 27:0 must be zero. -/
def decodeFormatZ (i : Instr) (why : Reject) (w : Word32) : Decoded :=
  if w.extractLsb' 0 28 = 0 then .operation i else .rejected why

/-- Format C (R62): bit 27 must be zero; `hue = cmd[26:16]`, `sat = cmd[15:8]`, `val = cmd[7:0]`. An out-of-range
hue still decodes as `CONV` (R68). -/
def decodeFormatC (w : Word32) : Decoded :=
  if w.extractLsb' 27 1 = 0 then
    .operation (.conv (w.extractLsb' 16 11) (w.extractLsb' 8 8) (w.extractLsb' 0 8))
  else .rejected .convReservedBit

/-- Format P (R63): bits 27:2 must be zero; `ch = cmd[1:0]`. -/
def decodeFormatP (w : Word32) : Decoded :=
  if w.extractLsb' 2 26 = 0 then .operation (.pubc (Channel.ofNumber (w.extractLsb' 0 2)))
  else .rejected .pubcReservedBits

/-- The decoder for the command port (R65): the four `cmd` rows; a word that matches none is reserved (R67). -/
def decodeCommand (w : Word32) : Decoded :=
  if opField w = 0x0 then decodeFormatZ .nop .nopReservedBits w
  else if opField w = 0x1 then decodeFormatC w
  else if opField w = 0x2 then decodeFormatZ .pub .pubReservedBits w
  else if opField w = 0x3 then decodeFormatP w
  else .rejected (.reservedOpcode (opField w))

/-- The decoder: command words by R65, strobes by R69 and R70. -/
def decode : PortWord → Decoded
  | .cmd w => decodeCommand w
  | .tick level => if level = 1 then .operation .tick else .rejected .strobeLow
  | .rst level => if level = 1 then .operation .reset else .rejected .strobeLow

/-- What presents an operation: the patterns of R65, the operand fields of R62 and R63. -/
def encode : Instr → PortWord
  | .nop => .cmd 0x00000000
  | .conv hue sat val => .cmd (0x1#4 ++ 0#1 ++ hue ++ sat ++ val)
  | .pub => .cmd 0x20000000
  | .pubc ch => .cmd (0x3#4 ++ 0#26 ++ ch.number)
  | .tick => .tick 1
  | .reset => .rst 1

/-- The port word that a row's bits stand for. A row of 32 bits is a command word. The two strobe rows have one bit
each and the SAME bit (`1`, on different ports), so their one byte is read as bit 0 the port `tick` and bit 1 the
port `rst`: the model's own convention, assumption log 12. -/
def portWordOfTable (nbits w : Nat) : PortWord :=
  if nbits ≤ 8 then
    if w.testBit 1 then .rst 1 else .tick (BitVec.ofNat 1 w)
  else .cmd (BitVec.ofNat 32 w)

/-- The instruction the decoder reads from an instruction whose bits are `w`, numbered as the opcode table numbers
them. A command word has no byte order: it is one 32-bit port (spec/20_memory.md R42). -/
def decodeTableWord (nbits w : Nat) : Option Instr :=
  match decode (portWordOfTable nbits w) with
  | .operation i => some i
  | .rejected _ => none

end Sys2Proof
end

