-- ==== Sys2Proof/Machine/Publish.lean ====
section
/-! DEFINITION. The publish family: `NOP`, `PUB`, `PUBC` (spec/41_publish.md R110 to R112), and the step of a word that
selects no operation (spec/30_encoding.md R67). -/

namespace Sys2Proof.Machine

/-- `NOP` (R110): the state after the step equals the state before. -/
def execNop (s : State) : Result := .next s

/-- `PUB` (R111): all four `DUTY` registers in one step. -/
def execPub (s : State) : Result := .next (s.withDuty s.res)

/-- `PUBC ch` (R112): one `DUTY` register, the other three unchanged. -/
def execPubc (ch : Channel) (s : State) : Result :=
  .next (s.withDuty (s.duty.set ch (s.res.get ch)))

/-- A reserved command word is a step that changes no state, whatever makes it reserved (R67). -/
def execRejected (_why : Reject) (s : State) : Result := .next s

end Sys2Proof.Machine
end

