-- ==== Sys2Proof/Machine/Reset.lean ====
section
/-! DEFINITION. The reset family: `RESET` (spec/70_reset_and_hazards.md R175). -/

namespace Sys2Proof.Machine

/-- `RESET` (R175): the values of spec/10_state.md R36, from any state. -/
def execReset (s : State) : Result := .next s.clearRegisters

end Sys2Proof.Machine
end

