-- ==== Sys2Proof/Machine/Flags.lean ====
section
/-! DEFINITION. The block has no flags (spec/10_state.md R32). Its one-bit results are the four comparator outputs of
`TICK` (spec/42_softpwm.md R122), computed here with the counter's wrapping increment (R121). -/

namespace Sys2Proof.Machine

/-- `wrap8(TICKCNT + 1)` (R121, spec/00_scope.md R13). -/
def nextCount (c : Byte) : Byte := BitVec.ofNat 8 ((c.toNat + 1) % 256)

/-- One comparator (R122): high iff the duty is strictly greater than the counter, unsigned; equality gives low. -/
def dutyExceeds (duty count : Byte) : Bool := decide (duty.toNat > count.toNat)

/-- The four independent comparators (R122, R129). -/
def comparators (duty : PerChannel Byte) (count : Byte) : PerChannel Bool :=
  duty.map (fun d => dutyExceeds d count)

end Sys2Proof.Machine
end

