-- ==== Sys2Proof/Machine/SoftPwm.lean ====
section
/-! DEFINITION. The soft-PWM family: `TICK` (spec/42_softpwm.md R120 to R124). Taking the tick is this step and nothing
more: no state is saved, no mode switched (spec/60_exceptions.md R160). -/

namespace Sys2Proof.Machine

/-- The effect of `TICK` (R120): the increment first, then the comparison with the incremented counter (R123), against
`DUTY` as it stands at the start of the step (R124). -/
def State.ticked (s : State) : State :=
  (s.withTickcnt (nextCount s.tickcnt)).withOut (comparators s.duty (nextCount s.tickcnt))

/-- `TICK` (R120). It has no precondition (R130). -/
def execTick (s : State) : Result := .next s.ticked

end Sys2Proof.Machine
end

