-- ==== Sys2Proof/Machine/Dispatch.lean ====
section
/-! DEFINITION. One arm per operation of spec/opcode_table.json. -/

namespace Sys2Proof.Machine

/-- The meaning of an operation: one atomic step (spec/00_scope.md R17). -/
def exec (i : Instr) (s : State) : Host.Outcome State Fault Refusal :=
  match i with
  | .nop => Sys2Proof.Machine.execNop s
  | .conv hue sat val => Sys2Proof.Machine.execConv hue sat val s
  | .pub => Sys2Proof.Machine.execPub s
  | .pubc ch => Sys2Proof.Machine.execPubc ch s
  | .tick => Sys2Proof.Machine.execTick s
  | .reset => Sys2Proof.Machine.execReset s

end Sys2Proof.Machine
end

