-- ==== Sys2Proof/Machine/Ports.lean ====
section
/-! DEFINITION. The input ports (spec/30_encoding.md R60, R69 to R71): what one sampling yields, in which order, and how
the block takes the next operation of the samplings still to come. -/

namespace Sys2Proof

/-- A sampling with every input port at 0: no step (R71). -/
def Sampling.idle : Sampling := ⟨false, false, false, 0⟩

/-- The port words one sampling yields, in order (R71): `rst = 1` is one `RESET` and nothing else (R159); otherwise the
tick, then the command (R158). -/
def Sampling.words (p : Sampling) : List PortWord :=
  if p.rst then [.rst 1]
  else (if p.tick then [.tick 1] else []) ++ (if p.cmdValid then [.cmd p.cmd] else [])

/-- The first port word of a sampling, and what of the sampling is still to be taken after it. -/
def Sampling.takeFirst (p : Sampling) : Option PortWord × List Sampling :=
  if p.rst then (some (.rst 1), [])
  else if p.tick then (some (.tick 1), if p.cmdValid then [{ p with tick := false }] else [])
  else if p.cmdValid then (some (.cmd p.cmd), [])
  else (none, [])

/-- The sampling that presents one port word and nothing else. -/
def Sampling.presenting : PortWord → Sampling
  | .cmd w => ⟨false, false, true, w⟩
  | .tick level => ⟨false, level == 1, false, 0⟩
  | .rst level => ⟨level == 1, false, false, 0⟩

/-- How many machine steps a sampling takes: one for each operation it yields, and one to pass over an idle one
(assumption log 2). -/
def Sampling.stepCount (p : Sampling) : Nat := max 1 p.words.length

end Sys2Proof

namespace Sys2Proof.Machine

/-- Taking the next operation from the oldest sampling. With no sampling left, or an idle one, there is none: no step,
no state change (R71). -/
def State.takeWord (s : State) : Option PortWord × State :=
  match s.inputs with
  | [] => (none, s)
  | p :: rest => (p.takeFirst.1, s.withInputs (p.takeFirst.2 ++ rest))

end Sys2Proof.Machine
end

