-- ==== Sys2Proof/Machine/Runs.lean ====
section
/-! DEFINITION. What a port word does, and sequences of steps: "a trace of samplings flattens to a sequence of steps"
(spec/30_encoding.md R71); a run ends where the given trace ends (spec/70_reset_and_hazards.md R193). -/

namespace Sys2Proof.Machine

/-- The meaning of an operation under a configuration: the step function of spec/10_state.md R38, `Config -> Operation ->
State -> State or refuse`. `exec` is it under `machineConfig` (Laws/Exec.lean, `execUnder_machineConfig`). Only `CONV` reads the
configuration (spec/20_memory.md R44, R54). -/
def execUnder (cfg : Config) (i : Instr) (s : State) : Result :=
  match i with
  | .nop => execNop s
  | .conv hue sat val => execConvUnder cfg hue sat val s
  | .pub => execPub s
  | .pubc ch => execPubc ch s
  | .tick => execTick s
  | .reset => execReset s

/-- One port word as one step, for a meaning of the operations: the operation it decodes to, or a step that changes
nothing (R67). -/
def wordStep (meaning : Instr → State → Result) (p : PortWord) (s : State) : Result :=
  match decode p with
  | .operation i => meaning i s
  | .rejected why => execRejected why s

/-- One machine step, for what a port word does: the block takes the next operation the ports present (R71); with none
there is no state change. -/
def portStep (word : PortWord → State → Result) (s : State) : Result :=
  match s.takeWord with
  | (none, t) => .next t
  | (some p, t) => word p t

/-- Going on after a next state; a stop stays a stop. -/
def Result.andThen (o : Result) (f : State → Result) : Result :=
  match o with
  | .next t => f t
  | .fault r => .fault r
  | .refused r => .refused r

/-- One step for each item of a list, in order, up to the first stop. -/
def inOrder {α : Type} (one : α → State → Result) : List α → State → Result
  | [], s => .next s
  | x :: rest, s => Result.andThen (one x s) (inOrder one rest)

/-- One port word as one step of the machine. -/
def execWord (p : PortWord) (s : State) : Result := wordStep exec p s

/-- One port word as one step under a configuration. -/
def execWordUnder (cfg : Config) (p : PortWord) (s : State) : Result := wordStep (execUnder cfg) p s

/-- A sequence of operations, one step each. -/
def execAll (ops : List Instr) (s : State) : Result := inOrder exec ops s

/-- A sequence of operations under a configuration (R10, R38). -/
def execAllUnder (cfg : Config) (ops : List Instr) (s : State) : Result := inOrder (execUnder cfg) ops s

/-- A sequence of port words, one step each. -/
def execWords (ps : List PortWord) (s : State) : Result := inOrder execWord ps s

/-- `n` consecutive ticks: the pseudo-instruction `TICKS n` (R74) as a sequence of steps. -/
def afterTicks (n : Nat) (s : State) : Result := execAll (List.replicate n .tick) s

/-- Of the next `n` consecutive ticks, the number after which a channel's output is high (spec/42_softpwm.md R125). -/
def highTicks (ch : Channel) : Nat → State → Nat
  | 0, _ => 0
  | n + 1, s =>
    match exec .tick s with
    | .next t => (if t.out.get ch then 1 else 0) + highTicks ch n t
    | .fault _ => 0
    | .refused _ => 0

end Sys2Proof.Machine
end

