-- ==== Sys2Proof/Machine/Step.lean ====
section
/-! DEFINITION. One step of the machine: it takes the next operation that the ports present (spec/30_encoding.md R71,
spec/00_scope.md R17) and runs it. There is no program counter and no fetch from memory (spec/10_state.md R31):
assumption logs 1, 2 and 3. -/

namespace Sys2Proof.Machine

/-- One machine step. -/
def step (s : State) : Host.Outcome State Fault Refusal :=
  portStep execWord s

/-- One machine step under a configuration (spec/00_scope.md R10, spec/10_state.md R38); `step` is it under
`machineConfig`. -/
def stepUnder (cfg : Config) (s : State) : Result := portStep (execWordUnder cfg) s

/-- The state whose very next step runs the instruction with these bits (numbered as the opcode table numbers them):
the ports present it in the oldest sampling. Nothing else changes. -/
def State.withFetchWord (s : State) (nbits w : Nat) : State :=
  s.withInputs (Sampling.presenting (portWordOfTable nbits w) :: s.inputs)

end Sys2Proof.Machine
end

