-- ==== Sys2Proof/Machine/Pseudo.lean ====
section
/-! DEFINITION. The pseudo-instructions of spec/30_encoding.md R74: each stands for several operations, and a tick from
the tick source may fall between any two of them. `ANIM` and `ANIMS` are in Machine/Animator.lean. -/

namespace Sys2Proof.Machine

/-- `PUBSEQ` (R74, spec/41_publish.md R115): four field writes in tuple order. -/
def pubSeq : List Instr := [.pubc .r, .pubc .g, .pubc .b, .pubc .w]

/-- `CONVPUB hue, sat, val` (R74): convert and publish atomically. -/
def convPub (hue : HueField) (sat val : Byte) : List Instr := [.conv hue sat val, .pub]

/-- `CONVSEQ hue, sat, val` (R74): convert and publish as the reference host does. -/
def convSeq (hue : HueField) (sat val : Byte) : List Instr := .conv hue sat val :: pubSeq

/-- `TICKS n` (R74). -/
def ticks (n : Nat) : List Instr := List.replicate n .tick

/-- `n` ticks fall among the operations of a host, each anywhere, the host's own order kept: the interleavings of
spec/43_animator_host.md R142 and spec/60_exceptions.md R158. -/
inductive TicksAmong : List Instr → Nat → List Instr → Prop where
  | done : TicksAmong [] 0 []
  | host {i : Instr} {ops merged : List Instr} {n : Nat} : TicksAmong ops n merged → TicksAmong (i :: ops) n (i :: merged)
  | tick {ops merged : List Instr} {n : Nat} : TicksAmong ops n merged → TicksAmong ops (n + 1) (.tick :: merged)

end Sys2Proof.Machine
end

