-- ==== Sys2Proof/Machine/Animator.lean ====
section
/-! DEFINITION. The reference host, the Animator (spec/43_animator_host.md R135 to R143): the environment of the block, no
part of it (spec/00_scope.md R5). Its hue is its own variable and is no state of the block (R137, spec/10_state.md
R35). Its wait (`DELAY`) issues nothing (R139 d), so it adds no operation: assumption log 17. -/

namespace Sys2Proof.Machine

/-- The Animator with its constants (R136) and its variable `HUE` (R137). -/
structure Animator where
  /-- `HUE`, in 0..1535. -/
  hue : Nat
  /-- `HUE_STEP`, in 0..1535. -/
  hueStep : Nat
  /-- `SAT0`. -/
  sat0 : Byte
  /-- `VAL0`. -/
  val0 : Byte
deriving DecidableEq, Repr

/-- The constraints on the constants and the range of `HUE` (R136, R137). -/
def Animator.inRange (a : Animator) : Bool := decide (a.hue < 1536) && decide (a.hueStep < 1536)

/-- The values of the source's one scenario (R136, R143). -/
def Animator.scenario : Animator := ⟨0, 5, 200, 255⟩

/-- `HUE <- (HUE + HUE_STEP) mod 1536` (R138). -/
def Animator.advance (a : Animator) : Animator := { a with hue := (a.hue + a.hueStep) % 1536 }

/-- How the host publishes (R139 c). -/
inductive Publication where
  /-- `PUBSEQ`, the reference behaviour. -/
  | fieldByField
  /-- `PUB`, the strict behaviour. -/
  | atomic
deriving DecidableEq, Repr

/-- The operations of a publication (R139 c). -/
def Publication.ops : Publication → List Instr
  | .fieldByField => pubSeq
  | .atomic => [.pub]

/-- The operations of one iteration of an Animator that has advanced its hue already (R139 b, c). -/
def Animator.issue (a : Animator) (how : Publication) : List Instr :=
  .conv (BitVec.ofNat 11 a.hue) a.sat0 a.val0 :: how.ops

/-- The operations of `n` iterations, the advance before the conversion in each (R139): `ANIM n` with the
field-by-field publication, `ANIMS n` with the atomic one (R140). -/
def Animator.animate (how : Publication) : Nat → Animator → List Instr
  | 0, _ => []
  | n + 1, a => a.advance.issue how ++ Animator.animate how n a.advance

/-- The Animator after `n` iterations (R138). -/
def Animator.afterIterations (a : Animator) : Nat → Animator
  | 0 => a
  | n + 1 => (a.afterIterations n).advance

end Sys2Proof.Machine
end

