-- ==== Sys2Proof/Machine/Datapath.lean ====
section
/-! DEFINITION. The converter's index arithmetic on 16-bit words, as a datapath would hold it: "a model that uses 16-bit
words needs no overflow handling" (spec/40_convert.md R104). No meaning uses it; a claim says that it agrees with
Machine/Kernel.lean. -/

namespace Sys2Proof.Machine

/-- A byte widened to 16 bits with zeros (spec/00_scope.md R15). -/
def widen (x : Byte) : BitVec 16 := x.zeroExtend 16

/-- R84 on 16-bit words; `255 - sat` is the complement of 8 bits. -/
def bot16 (val sat : Byte) : BitVec 16 :=
  let w1 := widen val * widen (~~~sat) + 1#16
  (w1 + (w1 >>> 8)) >>> 8

/-- R88 and R89 on 16-bit words; `256 - fraction` is formed in 16 bits. -/
def fraw16 (sat fraction : Byte) (odd : Bool) : BitVec 16 :=
  if odd then widen sat * widen fraction else widen sat * (256#16 - widen fraction)

/-- R90 on 16-bit words. -/
def fscale16 (f : BitVec 16) : BitVec 16 := (f + (f >>> 8)) >>> 8

/-- R91 and R92 on 16-bit words. -/
def rmp16 (val : Byte) (fs : BitVec 16) : BitVec 16 :=
  (widen val * (255#16 - fs) + (widen val >>> 1)) >>> 8

end Sys2Proof.Machine
end

