-- ==== Sys2Proof/Machine/Trace.lean ====
section
/-! DEFINITION. Several machine steps in a row. -/

namespace Sys2Proof.Machine

/-- `n` steps of a step function, up to the first stop. -/
def repeatStep (one : State → Result) : Nat → State → Result
  | 0, s => .next s
  | n + 1, s => Result.andThen (one s) (repeatStep one n)

/-- `n` machine steps, up to the first stop: the host's `Core.run` of this machine (Laws/Exec.lean, `core_run`). -/
def runSteps (n : Nat) (s : State) : Result := repeatStep step n s

/-- `n` machine steps under a configuration: the machine's run for either value of `MONO_MODE` and any curve
(spec/00_scope.md R10, spec/10_state.md R38). -/
def runStepsUnder (cfg : Config) (n : Nat) (s : State) : Result := repeatStep (stepUnder cfg) n s

end Sys2Proof.Machine
end

