-- ==== Sys2Proof/Safety.lean ====
section
/-! DEFINITION. What claims call safe: the duties of the environment (spec/43_animator_host.md R145), and the properties
of the registers that every step keeps (spec/10_state.md R24, spec/41_publish.md R116). -/

namespace Sys2Proof.Machine

/-- The host presents an operation with its operands in range (R145: "keep `hue` in 0..1535"; "not issue reserved
words"). -/
def wordLegal (p : PortWord) : Bool :=
  match decode p with
  | .operation i => i.wellFormed
  | .rejected _ => false

/-- Every operation a sampling yields is legal. -/
def samplingLegal (p : Sampling) : Bool := p.words.all wordLegal

/-- The environment keeps its duties in everything still to come. -/
def State.inputsLegal (s : State) : Bool := s.inputs.all samplingLegal

/-- A byte is in the image of the board's curve (R24). -/
def InCurve (b : Byte) : Prop := ∃ a : Byte, romByte a = b

/-- The range invariant of R24: every byte of `RES` and `DUTY` is in the image of `CURVE`. -/
def State.InCurveRange (s : State) : Prop :=
  (∀ c : Channel, InCurve (s.res.get c)) ∧ (∀ c : Channel, InCurve (s.duty.get c))

/-- Four bytes are the result of one conversion on this board. -/
def IsConversion (q : PerChannel Byte) : Prop :=
  ∃ (hue : HueField) (sat val : Byte), convert machineConfig hue sat val = some q

/-- `RES` is one conversion's result; each byte of `DUTY` is that channel of SOME conversion's result, the four
possibly of different conversions (R118, R181: "every byte seen is a published byte"). -/
def State.HoldsConversions (s : State) : Prop :=
  IsConversion s.res ∧ ∀ c : Channel, ∃ q : PerChannel Byte, IsConversion q ∧ s.duty.get c = q.get c

/-- At the top of the count no output is high: no duty exceeds 255 (spec/42_softpwm.md R126). -/
def State.DarkAtTop (s : State) : Prop := s.tickcnt = 255 → s.out = .all false

end Sys2Proof.Machine
end

