-- ==== Sys2Proof/Certificates/Slice0/Obligations.lean ====
section
/-! DEFINITION. The statements for the provers. Each docstring names the rules of spec/ it formalises, or what it is derived
from. `runSteps n s` is `n` machine steps from `s`. -/

open Sys2Proof Sys2Proof.Machine

/-! ## Encodings -/

/-- R61 to R65, R69, R70: what presents an operation decodes to that operation, for every operand value the formats
admit (hues out of range included). -/
def Obligations.DecodeOfEncodeIsTheOperation : Prop :=
  ∀ i : Instr, decode (encode i) = .operation i

/-- R65: an operation is presented by exactly one port word. -/
def Obligations.EncodeOfDecodedIsTheWord : Prop :=
  ∀ (p : PortWord) (i : Instr), decode p = .operation i → encode i = p

/-- Words of spec/95_test_vectors.md section 2.2 and of the rules, one or more per family. -/
def Obligations.SpecWordsDecode : Prop :=
  decode (.cmd 0x00000000) = .operation .nop ∧
  decode (.cmd 0x138425D3) = .operation (.conv 900 37 211) ∧
  decode (.cmd 0x16000000) = .operation (.conv 1536 0 0) ∧
  decode (.cmd 0x20000000) = .operation .pub ∧
  decode (.cmd 0x30000002) = .operation (.pubc .b) ∧
  decode (.tick 1) = .operation .tick ∧
  decode (.rst 1) = .operation .reset ∧
  decode (.cmd 0x18000000) = .rejected .convReservedBit ∧
  decode (.cmd 0x40000000) = .rejected (.reservedOpcode 4)

/-- R65: a word selects a row exactly when `(w & mask) = match`; the strobes select theirs at level 1; the rule's three
examples. -/
def Obligations.RowsSelectByMaskAndMatch : Prop :=
  (∀ w : Word32,
    (decode (.cmd w) = .operation .nop ↔ w &&& 0xFFFFFFFF = 0x00000000) ∧
    ((∃ hue sat val, decode (.cmd w) = .operation (.conv hue sat val)) ↔ w &&& 0xF8000000 = 0x10000000) ∧
    (decode (.cmd w) = .operation .pub ↔ w &&& 0xFFFFFFFF = 0x20000000) ∧
    ((∃ ch, decode (.cmd w) = .operation (.pubc ch)) ↔ w &&& 0xFFFFFFFC = 0x30000000) ∧
    decode (.cmd w) ≠ .operation .tick ∧ decode (.cmd w) ≠ .operation .reset) ∧
  (∀ level : BitVec 1,
    (decode (.tick level) = .operation .tick ↔ level &&& 0x1 = 0x1) ∧
    (decode (.rst level) = .operation .reset ↔ level &&& 0x1 = 0x1)) ∧
  decode (.cmd 0x1000FFFF) = .operation (.conv 0 255 255) ∧
  decode (.cmd 0x15FFC8FF) = .operation (.conv 1535 200 255) ∧
  decode (.cmd 0x30000001) = .operation (.pubc .g)

/-- R62 and R63: the fields of a `CONV` word and of a `PUBC` word, in numbers, and their reserved bits; every value of every
field decodes. -/
def Obligations.OperandFieldsOfCommandWords : Prop :=
  (∀ (w : Word32) (hue : HueField) (sat val : Byte), decode (.cmd w) = .operation (.conv hue sat val) ↔
    w.toNat / 2 ^ 28 = 1 ∧ w.toNat / 2 ^ 27 % 2 = 0 ∧ w.toNat / 2 ^ 16 % 2 ^ 11 = hue.toNat ∧
      w.toNat / 2 ^ 8 % 2 ^ 8 = sat.toNat ∧ w.toNat % 2 ^ 8 = val.toNat) ∧
  (∀ (w : Word32) (ch : Channel), decode (.cmd w) = .operation (.pubc ch) ↔
    w.toNat / 2 ^ 28 = 3 ∧ w.toNat / 2 ^ 2 % 2 ^ 26 = 0 ∧
      w.toNat % 4 = match ch with | .r => 0 | .g => 1 | .b => 2 | .w => 3)

/-- R67: which command words are reserved, and that such a word is a step that changes nothing. -/
def Obligations.ReservedWordsChangeNothing : Prop :=
  ∀ w : Word32,
    ((∃ why, decode (.cmd w) = .rejected why) ↔
      (4 ≤ w.toNat / 2 ^ 28) ∨
      ((w.toNat / 2 ^ 28 = 0 ∨ w.toNat / 2 ^ 28 = 2) ∧ w.toNat % 2 ^ 28 ≠ 0) ∨
      (w.toNat / 2 ^ 28 = 1 ∧ w.toNat / 2 ^ 27 % 2 = 1) ∨
      (w.toNat / 2 ^ 28 = 3 ∧ w.toNat / 2 ^ 2 % 2 ^ 26 ≠ 0)) ∧
    ∀ why, decode (.cmd w) = .rejected why →
      ∀ s : State, execWord (.cmd w) s = .next s ∧ execWord (.cmd w) s = exec .nop s

/-- R68 and R108: a `CONV` word with `cmd[26:25] = 0b11` decodes as `CONV` and the step is refused, in every state
and under every configuration. -/
def Obligations.OutOfRangeHueIsRefused : Prop :=
  (∀ w : Word32, w &&& 0xF8000000 = 0x10000000 → w.toNat / 2 ^ 25 % 4 = 3 →
    ∃ hue sat val, decode (.cmd w) = .operation (.conv hue sat val) ∧ 1536 ≤ hue.toNat) ∧
  (∀ (hue : HueField) (sat val : Byte) (s : State), 1536 ≤ hue.toNat →
    exec (.conv hue sat val) s = .refused (.hueOutOfRange hue) ∧
    ∀ cfg : Config, execConvUnder cfg hue sat val s = .refused (.hueOutOfRange hue))

/-! ## Steps and ports -/

/-- A machine step takes the next operation of the oldest sampling and runs it (R31, R71; assumption logs 1, 2). -/
def Obligations.StepRunsTheDecodedOperation : Prop :=
  ∀ (s : State) (p : Sampling) (rest : List Sampling) (w : PortWord) (i : Instr),
    s.inputs = p :: rest → p.takeFirst.1 = some w → decode w = .operation i →
      step s = exec i (s.withInputs (p.takeFirst.2 ++ rest))

/-- R71 and R159: what one sampling yields: a `RESET` alone; a `TICK`; a host step; both in that order; or no state
change. That each of these is a machine step is the model's choice (assumption logs 1 and 2). -/
def Obligations.SamplingYieldsItsSteps : Prop :=
  ∀ (s : State) (p : Sampling) (rest : List Sampling), s.inputs = p :: rest →
    (p.rst = true → step s = exec .reset (s.withInputs rest)) ∧
    (p.rst = false → p.tick = true → p.cmdValid = false → step s = exec .tick (s.withInputs rest)) ∧
    (p.rst = false → p.tick = false → p.cmdValid = true → step s = execWord (.cmd p.cmd) (s.withInputs rest)) ∧
    (p.rst = false → p.tick = true → p.cmdValid = true →
      runSteps 2 s =
        Result.andThen (exec .tick (s.withInputs rest)) (execWord (.cmd p.cmd))) ∧
    (p.rst = false → p.tick = false → p.cmdValid = false → step s = .next (s.withInputs rest))

/-- With nothing presented the block keeps its whole state (the model's reading of R71 and R176, assumption log 3). -/
def Obligations.IdleBlockKeepsItsState : Prop :=
  ∀ (n : Nat) (s : State), s.inputs = [] → runSteps n s = .next s

/-- R71: a trace of samplings flattens to a sequence of steps: the machine run over samplings is the run over their
port words, stops included. The list of samplings and the number of steps each takes are the model's choice (assumption
logs 1 and 2). -/
def Obligations.MachineRunIsTheFlattenedSequence : Prop :=
  ∀ (ps rest : List Sampling) (s : State),
    runSteps (ps.map Sampling.stepCount).sum (s.withInputs (ps ++ rest)) =
      execWords (ps.flatMap Sampling.words) (s.withInputs rest)

/-- An instruction given by its table bits is run by the very next step (assumption logs 1, 12). -/
def Obligations.TableWordIsTheNextOperation : Prop :=
  ∀ (s : State) (nbits w : Nat) (i : Instr), decodeTableWord nbits w = some i →
    step (s.withFetchWord nbits w) = exec i s

/-- R28: `out[n]` is the output register of channel number `n`; `res` holds `RES[r]` in bits 31:24 down to `RES[w]`. -/
def Obligations.OutputPortsAreWiresFromState : Prop :=
  ∀ s : State,
    (s.outPort.getLsbD 0 = s.out.r ∧ s.outPort.getLsbD 1 = s.out.g ∧ s.outPort.getLsbD 2 = s.out.b ∧
      s.outPort.getLsbD 3 = s.out.w) ∧
    s.resPort.toNat = s.res.r.toNat * 2 ^ 24 + s.res.g.toNat * 2 ^ 16 + s.res.b.toNat * 2 ^ 8 + s.res.w.toNat

/-! ## NOP, PUB, PUBC -/

/-- R110. -/
def Obligations.NopLeavesTheState : Prop :=
  decode (.cmd 0x00000000) = .operation .nop ∧ ∀ s : State, exec .nop s = .next s

/-- R111, with its frame. -/
def Obligations.PubCopiesAllFourRegisters : Prop :=
  decode (.cmd 0x20000000) = .operation .pub ∧
  ∀ s : State, ∃ t : State, exec .pub s = .next t ∧ (∀ c : Channel, t.duty.get c = s.res.get c) ∧
    t.res = s.res ∧ t.tickcnt = s.tickcnt ∧ t.out = s.out

/-- R112, with its frame: the other three `DUTY` registers too are unchanged. -/
def Obligations.PubcCopiesOneRegister : Prop :=
  ∀ ch : Channel,
    (∃ w : Word32, decode (.cmd w) = .operation (.pubc ch) ∧
      w.toNat = 0x30000000 + match ch with | .r => 0 | .g => 1 | .b => 2 | .w => 3) ∧
    ∀ s : State, ∃ t : State, exec (.pubc ch) s = .next t ∧ t.duty.get ch = s.res.get ch ∧
      (∀ c : Channel, c ≠ ch → t.duty.get c = s.duty.get c) ∧
      t.res = s.res ∧ t.tickcnt = s.tickcnt ∧ t.out = s.out

/-- R114: publishing before the first `CONV`, in whatever way and with whatever ticks, copies the reset zeros; the lamp stays
dark. -/
def Obligations.PublishBeforeConvertIsDark : Prop :=
  ∀ (ops : List Instr) (s : State), (∀ i ∈ ops, i = .nop ∨ i = .tick ∨ i = .pub ∨ ∃ ch, i = .pubc ch) →
    ∃ t : State, execAll (.reset :: ops) s = .next t ∧ t.res = .all 0 ∧ t.duty = .all 0 ∧ t.out = .all false

/-- R115: with no tick among them, the four field writes in ANY order have the effect of `PUB`. -/
def Obligations.FieldWritesInAnyOrderArePub : Prop :=
  ∀ (order : List Channel) (s : State), order.Perm [.r, .g, .b, .w] →
    execAll (order.map Instr.pubc) s = exec .pub s

/-- R184 and R113: a publication right after a conversion publishes its result, and shows at the next tick, not
before. -/
def Obligations.PublicationShowsAtTheNextTick : Prop :=
  ∀ (hue : HueField) (sat val : Byte) (s : State), hue.toNat ≤ 1535 →
    ∃ (q : PerChannel Byte) (t u : State), convert machineConfig hue sat val = some q ∧
      execAll (convPub hue sat val) s = .next t ∧ t.duty = q ∧ t.out = s.out ∧
      exec .tick t = .next u ∧ ∀ c : Channel, u.out.get c = true ↔ (q.get c).toNat > u.tickcnt.toNat

/-! ## TICK -/

/-- R120, R121, R122, with the frame. -/
def Obligations.TickCountsAndCompares : Prop :=
  ∀ s : State, ∃ t : State, exec .tick s = .next t ∧
    t.tickcnt.toNat = (s.tickcnt.toNat + 1) % 256 ∧
    (∀ c : Channel, t.out.get c = true ↔ (s.duty.get c).toNat > (s.tickcnt.toNat + 1) % 256) ∧
    t.res = s.res ∧ t.duty = s.duty

/-- R126: duty 0 is always low; duty 255 is low on exactly the tick that sets the counter to 255. -/
def Obligations.EndsOfTheDutyRange : Prop :=
  ∀ (s : State) (c : Channel), ∃ t : State, exec .tick s = .next t ∧
    (s.duty.get c = 0 → t.out.get c = false) ∧
    (s.duty.get c = 255 → (t.out.get c = true ↔ t.tickcnt ≠ 255))

/-- R131: the counter counts ticks modulo 256, and nothing but the outputs moves with it. That `inputs` stays is the model's own clause
(assumption log 1). -/
def Obligations.CounterCountsTicks : Prop :=
  ∀ (n : Nat) (s : State), ∃ t : State, afterTicks n s = .next t ∧
    t.tickcnt.toNat = (s.tickcnt.toNat + n) % 256 ∧ t.res = s.res ∧ t.duty = s.duty ∧ t.inputs = s.inputs ∧
    (0 < n → ∀ c : Channel, t.out.get c = true ↔ (s.duty.get c).toNat > (s.tickcnt.toNat + n) % 256)

/-- R125: over 256 consecutive ticks with a steady duty `d` the output is high after exactly `d` of them, whatever the
counter was. -/
def Obligations.DutyIsRealisedOverAPeriod : Prop :=
  ∀ (s : State) (ch : Channel), highTicks ch 256 s = (s.duty.get ch).toNat ∧
    ∃ t : State, afterTicks 256 s = .next t ∧ t.duty = s.duty ∧ t.tickcnt = s.tickcnt

/-- R187: a period in which the duty changes before the tick that sets the counter to `k`: `min k d` high ticks before
the change and `e - k` (zero if `e < k`) after it. -/
def Obligations.DutyChangeInsideAPeriod : Prop :=
  ∀ (s : State) (ch : Channel) (k : Nat), s.tickcnt = 255 → k ≤ 256 →
    highTicks ch k s = min k (s.duty.get ch).toNat ∧
    ∃ t u : State, afterTicks k s = .next t ∧ exec (.pubc ch) t = .next u ∧
      highTicks ch (256 - k) u = (s.res.get ch).toNat - k

/-- R127: with a steady duty an output rises only on the tick that sets the counter to 0 and falls on the tick that
sets it to the duty. The premise says that the outputs are those of the last tick. -/
def Obligations.OutputsRiseAtTheWrapOnly : Prop :=
  ∀ (s : State) (c : Channel), s.out = comparators s.duty s.tickcnt →
    ∃ t : State, exec .tick s = .next t ∧
      (s.out.get c = false → t.out.get c = true → t.tickcnt = 0) ∧
      (s.out.get c = true → t.out.get c = false → t.tickcnt = s.duty.get c)

/-- R128: between ticks the outputs (and the counter) hold, whatever host operations occur. -/
def Obligations.OutputsHoldBetweenTicks : Prop :=
  ∀ (ops : List Instr) (s t : State), (∀ i ∈ ops, i ≠ .tick ∧ i ≠ .reset) → execAll ops s = .next t →
    t.out = s.out ∧ t.tickcnt = s.tickcnt

/-! ## RESET -/

/-- R36 and R175: every register 0 and the outputs low, from any state; idempotent; taken alone whatever is presented with
it; and the model's reset state has those values. -/
def Obligations.ResetLeavesTheResetValues : Prop :=
  (∀ s : State, ∃ t : State, exec .reset s = .next t ∧
    (∀ c : Channel, t.res.get c = 0 ∧ t.duty.get c = 0 ∧ t.out.get c = false) ∧ t.tickcnt = 0 ∧
    exec .reset t = .next t) ∧
  (∀ (tick cmdValid : Bool) (cmd : Word32),
    (Sampling.words ⟨true, tick, cmdValid, cmd⟩).map decode = [.operation .reset]) ∧
  (∀ c : Channel, State.reset.res.get c = 0 ∧ State.reset.duty.get c = 0 ∧ State.reset.out.get c = false) ∧
  State.reset.tickcnt = 0

/-- R176 and R177: after `RESET` every tick leaves the outputs low; the first sets the counter to 1, and the counter
first reads 0 again after 256. -/
def Obligations.TicksAfterResetStayDark : Prop :=
  ∀ (n : Nat) (s : State), ∃ t : State, execAll (.reset :: ticks n) s = .next t ∧ t.out = .all false ∧
    (n = 1 → t.tickcnt = 1) ∧ (0 < n → n < 256 → t.tickcnt ≠ 0) ∧ (n = 256 → t.tickcnt = 0)

/-! ## CONV -/

/-- R80: `CONV` with a hue in range writes the conversion into `RES` and nothing else; out of range it is refused; the
rule's example. -/
def Obligations.ConvWritesTheConversion : Prop :=
  (∀ (hue : HueField) (sat val : Byte) (s : State), hue.toNat ≤ 1535 →
    ∃ t : State, exec (.conv hue sat val) s = .next t ∧ convert machineConfig hue sat val = some t.res ∧
      t.duty = s.duty ∧ t.tickcnt = s.tickcnt ∧ t.out = s.out) ∧
  (∀ (hue : HueField) (sat val : Byte) (s : State), 1536 ≤ hue.toNat →
    exec (.conv hue sat val) s = .refused (.hueOutOfRange hue)) ∧
  decode (.cmd 0x1000C8FF) = .operation (.conv 0 200 255) ∧
  (∀ cfg : Config, (∀ a : Byte, cfg.curve.table a = a) → convert cfg 0 200 255 = some ⟨255, 55, 55, 55⟩)

/-- R82 to R85, R88 to R94: the four bytes in numbers, by sextant. The kernel is the spec's decision D2. -/
def Obligations.ConvComputesTheLevels : Prop :=
  ∀ (hue : HueField) (sat val : Byte) (s : State), hue.toNat ≤ 1535 →
    ∃ t : State, exec (.conv hue sat val) s = .next t ∧
      let sx := hue.toNat / 256
      let fr := hue.toNat % 256
      let p := val.toNat * (255 - sat.toNat)
      let bottomIdx := ((p + 1) + (p + 1) / 256) / 256
      let f := if sx % 2 = 0 then sat.toNat * (256 - fr) else sat.toNat * fr
      let fs := (f + f / 256) / 256
      let rampIdx := (val.toNat * (255 - fs) + val.toNat / 2) / 256
      let top := romByte val
      let bottom := romByte (BitVec.ofNat 8 bottomIdx)
      let ramp := romByte (BitVec.ofNat 8 rampIdx)
      (sx = 0 → t.res = ⟨top, ramp, bottom, bottom⟩) ∧ (sx = 1 → t.res = ⟨ramp, top, bottom, bottom⟩) ∧
      (sx = 2 → t.res = ⟨bottom, top, ramp, bottom⟩) ∧ (sx = 3 → t.res = ⟨bottom, ramp, top, bottom⟩) ∧
      (sx = 4 → t.res = ⟨ramp, bottom, top, bottom⟩) ∧ (sx = 5 → t.res = ⟨top, bottom, ramp, bottom⟩)

/-- R95: white is the bottom level, and equals the colour channel the table gives `bottom`. -/
def Obligations.WhiteIsTheBottomLevel : Prop :=
  ∀ (hue : HueField) (sat val : Byte) (s : State), hue.toNat ≤ 1535 →
    ∃ t : State, exec (.conv hue sat val) s = .next t ∧
      t.res.w = romByte (BitVec.ofNat 8 (bot val.toNat sat.toNat)) ∧
      (hue.toNat < 512 → t.res.w = t.res.b) ∧
      (512 ≤ hue.toNat → hue.toNat < 1024 → t.res.w = t.res.r) ∧
      (1024 ≤ hue.toNat → t.res.w = t.res.g)

/-- R97: two `CONV` steps with the same operands write the same `RES`, whatever the states. -/
def Obligations.ConvReadsNoState : Prop :=
  ∀ (hue : HueField) (sat val : Byte) (s u : State), hue.toNat ≤ 1535 →
    ∃ t v : State, exec (.conv hue sat val) s = .next t ∧ exec (.conv hue sat val) u = .next v ∧ t.res = v.res

/-- R44: a conversion depends on the ROM at three addresses only (at none in the short-circuit cases). -/
def Obligations.ConvReadsTheRomAtItsAddresses : Prop :=
  ∀ (a b : DimmingCurve) (mode : MonoMode) (hue : HueField) (sat val : Byte),
    (∀ x ∈ romAddresses mode hue sat val, a.table x = b.table x) →
      convert ⟨a, mode⟩ hue sat val = convert ⟨b, mode⟩ hue sat val ∧
      (romAddresses .fallThrough hue sat val).length = 3 ∧
      (val = 0 ∨ sat = 0 → romAddresses .shortCircuit hue sat val = [])

/-- R100: `val = 0` gives index 0 in every channel and darkness, in both modes. -/
def Obligations.ZeroValueIsDark : Prop :=
  ∀ (cfg : Config) (hue : HueField) (sat : Byte), hue.toNat ≤ 1535 →
    indexTuple hue sat 0 = some (.all 0) ∧ convert cfg hue sat 0 = some (.all 0)

/-- R101: `sat = 0` in FALLTHROUGH mode: three channels at `CURVE[val]`, the ramp channel of the sextant at
`CURVE[val - 1]` (index 0 for `val = 0`). -/
def Obligations.ZeroSaturationKeepsTheRamp : Prop :=
  ∀ (curve : DimmingCurve) (hue : HueField) (val : Byte), hue.toNat ≤ 1535 →
    let sx := hue.toNat / 256
    let full := curve.table val
    let below := curve.table (BitVec.ofNat 8 (val.toNat - 1))
    indexLevels hue 0 val = ⟨val.toNat, val.toNat - 1, val.toNat⟩ ∧
    (sx = 0 ∨ sx = 3 → convert ⟨curve, .fallThrough⟩ hue 0 val = some ⟨full, below, full, full⟩) ∧
    (sx = 1 ∨ sx = 4 → convert ⟨curve, .fallThrough⟩ hue 0 val = some ⟨below, full, full, full⟩) ∧
    (sx = 2 ∨ sx = 5 → convert ⟨curve, .fallThrough⟩ hue 0 val = some ⟨full, full, below, full⟩) ∧
    convert ⟨curve, .shortCircuit⟩ hue 0 val = some (.all val)

/-- R99: the alternative `MONO_MODE`. -/
def Obligations.ShortCircuitMode : Prop :=
  ∀ (curve : DimmingCurve) (hue : HueField) (sat val : Byte) (s : State), hue.toNat ≤ 1535 →
    ∃ q, execConvUnder ⟨curve, .shortCircuit⟩ hue sat val s = .next (s.withRes q) ∧
      (val = 0 → q = .all 0) ∧ (val ≠ 0 → sat = 0 → q = .all val) ∧
      (val ≠ 0 → sat ≠ 0 → convert ⟨curve, .fallThrough⟩ hue sat val = some q)

/-- R102: full saturation and value at the six sextant boundaries. -/
def Obligations.SextantBoundaryColours : Prop :=
  ∀ s : State,
    exec (.conv 0 255 255) s = .next (s.withRes ⟨255, 0, 0, 0⟩) ∧
    exec (.conv 256 255 255) s = .next (s.withRes ⟨romByte 254, 255, 0, 0⟩) ∧
    exec (.conv 512 255 255) s = .next (s.withRes ⟨0, 255, 0, 0⟩) ∧
    exec (.conv 768 255 255) s = .next (s.withRes ⟨0, romByte 254, 255, 0⟩) ∧
    exec (.conv 1024 255 255) s = .next (s.withRes ⟨0, 0, 255, 0⟩) ∧
    exec (.conv 1280 255 255) s = .next (s.withRes ⟨255, 0, romByte 254, 0⟩)

/-- R86: `BOT` is exact division by 255 rounding down, and never above rounding to nearest, never more than one below
it. -/
def Obligations.BottomIndexIsFloorDivision : Prop :=
  ∀ val sat : Byte,
    let p := val.toNat * (255 - sat.toNat)
    bot val.toNat sat.toNat = p / 255 ∧
    p / 255 ≤ (2 * p + 255) / 510 ∧ (2 * p + 255) / 510 ≤ bot val.toNat sat.toNat + 1

/-- R103 (a), (c), (d), (e), (k): bounds of the three indices; none is lost when it becomes a ROM address. -/
def Obligations.IndicesStayInBounds : Prop :=
  ∀ (hue : HueField) (sat val : Byte),
    let l := indexLevels hue sat val
    l.top = val.toNat ∧ l.bottom ≤ val.toNat ∧ l.ramp ≤ val.toNat ∧ (0 < val.toNat → l.ramp ≤ val.toNat - 1) ∧
    l.bottom ≤ l.ramp + 1 ∧ fscale (fraw sat.toNat (fraction hue) (parity hue)) ≤ sat.toNat ∧
    (addressLevels hue sat val).map BitVec.toNat = l

/-- R103 (f): the ramp index rises with the fraction in an even sextant and falls in an odd one, by at most 1 a step. -/
def Obligations.RampMovesByAtMostOne : Prop :=
  ∀ (val sat : Byte) (fr : Nat), fr < 255 →
    let even := fun x => rmp val.toNat (fscale (fraw sat.toNat x 0))
    let odd := fun x => rmp val.toNat (fscale (fraw sat.toNat x 1))
    even fr ≤ even (fr + 1) ∧ even (fr + 1) ≤ even fr + 1 ∧ odd (fr + 1) ≤ odd fr ∧ odd fr ≤ odd (fr + 1) + 1

/-- R105: continuity in hue, in the index domain, with the wrap from 1535 to 0: at most 1 in every channel, at most 2 at
a boundary from an odd to an even sextant; inside a sextant at most one channel moves. -/
def Obligations.HueStepMovesTheIndicesLittle : Prop :=
  (∀ (hue next : HueField) (sat val : Byte), hue.toNat ≤ 1535 → next.toNat = (hue.toNat + 1) % 1536 →
    ∃ p q, indexTuple hue sat val = some p ∧ indexTuple next sat val = some q ∧
      (∀ c : Channel, p.get c ≤ q.get c + 2 ∧ q.get c ≤ p.get c + 2) ∧
      (hue.toNat % 512 ≠ 511 → ∀ c : Channel, p.get c ≤ q.get c + 1 ∧ q.get c ≤ p.get c + 1) ∧
      (hue.toNat % 256 ≠ 255 → ∃ d : Channel, ∀ c : Channel, c ≠ d → p.get c = q.get c)) ∧
  indexTuple 1535 145 248 = some ⟨248, 106, 108, 106⟩ ∧ indexTuple 0 145 248 = some ⟨248, 107, 106, 106⟩

/-- R106: every result byte is in the image of the curve, at most the top level, and at least the curve one index below
the bottom index. -/
def Obligations.ConversionStaysInRange : Prop :=
  ∀ (hue : HueField) (sat val : Byte) (s : State), hue.toNat ≤ 1535 →
    ∃ t : State, exec (.conv hue sat val) s = .next t ∧
      t.res.w = romByte (BitVec.ofNat 8 (bot val.toNat sat.toNat)) ∧
      ∀ c : Channel, InCurve (t.res.get c) ∧ (t.res.get c).toNat ≤ (romByte val).toNat ∧
        (romByte (BitVec.ofNat 8 (max (bot val.toNat sat.toNat) 1 - 1))).toNat ≤ (t.res.get c).toNat

/-- R104: the 16-bit datapath computes the same indices, so no intermediate overflows 16 bits. -/
def Obligations.SixteenBitDatapathAgrees : Prop :=
  ∀ (val sat fr : Byte) (odd : Bool),
    (bot16 val sat).toNat = bot val.toNat sat.toNat ∧
    (fscale16 (fraw16 sat fr odd)).toNat = fscale (fraw sat.toNat fr.toNat odd.toNat) ∧
    (rmp16 val (fscale16 (fraw16 sat fr odd))).toNat = rmp val.toNat (fscale (fraw sat.toNat fr.toNat odd.toNat))

/-! ## The whole machine -/

/-- R54 and R164: which operation can change which state. The clause on `inputs`, the model's own field, is the model's
choice (assumption log 1). -/
def Obligations.RegistersChangeOnlyByTheirOwners : Prop :=
  ∀ (i : Instr) (s t : State), exec i s = .next t →
    (t.res ≠ s.res → (∃ hue sat val, i = .conv hue sat val) ∨ i = .reset) ∧
    (∀ c : Channel, t.duty.get c ≠ s.duty.get c → i = .pub ∨ i = .pubc c ∨ i = .reset) ∧
    (t.tickcnt ≠ s.tickcnt → i = .tick ∨ i = .reset) ∧
    (t.out ≠ s.out → i = .tick ∨ i = .reset) ∧
    t.inputs = s.inputs

/-- R48: a `DUTY` byte read at a tick is the one last published: over a sequence without `PUB`, `PUBC` of that channel and
`RESET` it stays, and a tick then compares it. -/
def Obligations.TickReadsTheLatestPublishedByte : Prop :=
  ∀ (c : Channel) (ops : List Instr) (s t : State), (∀ i ∈ ops, i ≠ .pub ∧ i ≠ .pubc c ∧ i ≠ .reset) →
    execAll ops s = .next t →
      t.duty.get c = s.duty.get c ∧
      ∃ u : State, exec .tick t = .next u ∧ (u.out.get c = true ↔ (s.duty.get c).toNat > u.tickcnt.toNat)

/-- R49 and R181: during a publication by field writes, in any order, with any number of ticks among them, each tick
shows the new byte in the channels already written and the old byte in the others. -/
def Obligations.TornReadShowsOldOrNewBytes : Prop :=
  ∀ (ops : List Instr) (s : State), (∀ i ∈ ops, i = .tick ∨ ∃ ch, i = .pubc ch) →
    ∃ t : State, execAll (ops ++ [.tick]) s = .next t ∧
      ∀ c : Channel,
        t.out.get c = dutyExceeds (if .pubc c ∈ ops then s.res.get c else s.duty.get c) t.tickcnt

/-- R49: with `PUB` a tick sees all four old bytes before the first publication, and all four new ones after it. -/
def Obligations.AtomicPublicationIsNeverTorn : Prop :=
  ∀ (ops : List Instr) (s : State), (∀ i ∈ ops, i = .tick ∨ i = .pub) →
    ∃ t : State, execAll (ops ++ [.tick]) s = .next t ∧
      t.out = comparators (if .pub ∈ ops then s.res else s.duty) t.tickcnt

/-- R142 and R160: ticks falling anywhere among a host's operations leave its data undisturbed, and count on by their
number when the host issues neither a tick nor a reset. That `inputs` stays is the model's own clause (assumption log 1). -/
def Obligations.TicksLeaveTheHostsData : Prop :=
  ∀ (ops merged : List Instr) (n : Nat) (s t : State), TicksAmong ops n merged → execAll ops s = .next t →
    ∃ u : State, execAll merged s = .next u ∧ u.res = t.res ∧ u.duty = t.duty ∧ u.inputs = t.inputs ∧
      ((∀ i ∈ ops, i ≠ .tick ∧ i ≠ .reset) → u.tickcnt.toNat = (s.tickcnt.toNat + n) % 256)

/-- R24: every step of the machine keeps every byte of `RES` and `DUTY` in the image of the curve. -/
def Obligations.StepKeepsTheCurveRange : Prop :=
  ∀ s t : State, s.InCurveRange → step s = .next t → t.InCurveRange

/-- R21, R118, R181: every step keeps `RES` a conversion's result and every `DUTY` byte a published byte of some
conversion. -/
def Obligations.StepKeepsConversionResults : Prop :=
  ∀ s t : State, s.HoldsConversions → step s = .next t → t.HoldsConversions

/-- R126: every step keeps the outputs dark whenever the counter is at 255. -/
def Obligations.StepKeepsTheTopDark : Prop :=
  ∀ s t : State, s.DarkAtTop → step s = .next t → t.DarkAtTop

/-- The state after reset meets the three invariants (R24, R36). -/
def Obligations.ResetMeetsTheInvariants : Prop :=
  State.reset.InCurveRange ∧ State.reset.HoldsConversions ∧ State.reset.DarkAtTop

/-- R130, R145, R151: while the environment keeps its duties no run stops, however long, and the registers stay results
of conversions. The samplings still to come are the model's own field (assumption log 1). -/
def Obligations.LegalInputsNeverStopTheMachine : Prop :=
  ∀ (n : Nat) (s : State), s.inputsLegal = true → s.HoldsConversions →
    ∃ t : State, runSteps n s = .next t ∧ t.inputsLegal = true ∧ t.HoldsConversions

/-- R108 and R150: a step never faults, and is refused only for a hue out of range that the ports present: in the oldest
sampling `rst` and `tick` are 0, `cmd_valid` is 1, and `cmd` is a `CONV` with that hue. The samplings are the model's own field
(assumption log 1); that there is no fault is the empty type of assumption log 14, so the clause on faults says no more. -/
def Obligations.OnlyAnOutOfRangeHueStopsAStep : Prop :=
  ∀ s : State, (∀ f : Fault, step s ≠ .fault f) ∧
    ∀ r : Refusal, step s = .refused r →
      ∃ (hue : HueField) (sat val : Byte) (p : Sampling) (rest : List Sampling),
        r = .hueOutOfRange hue ∧ 1536 ≤ hue.toNat ∧ s.inputs = p :: rest ∧
        p.rst = false ∧ p.tick = false ∧ p.cmdValid = true ∧
        decode (.cmd p.cmd) = .operation (.conv hue sat val)

/-! ## The machine under every configuration (R10, R38) -/

/-- R98 to R100: while no `CONV` that the ports present has saturation 0 with another value than 0, a run of the machine is
the same for both values of `MONO_MODE`, under any curve. The samplings are the model's own field (assumption log 1). -/
def Obligations.ModesAgreeOnRunsWithoutGreys : Prop :=
  ∀ (curve : DimmingCurve) (n : Nat) (s : State),
    (∀ p ∈ s.inputs, ∀ w ∈ p.words, ∀ (hue : HueField) (sat val : Byte),
      decode w = .operation (.conv hue sat val) → sat ≠ 0 ∨ val = 0) →
    runStepsUnder ⟨curve, .shortCircuit⟩ n s = runStepsUnder ⟨curve, .fallThrough⟩ n s

/-- R99 on the whole machine: under `SHORTCIRCUIT` a conversion with saturation 0 puts the raw value in `RES`, `PUB` puts it in
`DUTY`, and a tick compares it. -/
def Obligations.ShortCircuitGreyReachesTheOutputs : Prop :=
  ∀ (curve : DimmingCurve) (hue : HueField) (val : Byte) (s : State), hue.toNat ≤ 1535 →
    ∃ t : State, execAllUnder ⟨curve, .shortCircuit⟩ [.conv hue 0 val, .pub, .tick] s = .next t ∧
      t.res = .all val ∧ t.duty = .all val ∧ t.tickcnt.toNat = (s.tickcnt.toNat + 1) % 256 ∧
      ∀ c : Channel, t.out.get c = true ↔ val.toNat > (s.tickcnt.toNat + 1) % 256

/-- R54 and R108: the configuration changes levels only. Under two configurations the same samplings run equally far, and
leave the same counter (and the same samplings, the model's own field: assumption log 1). -/
def Obligations.ConfigurationChangesLevelsOnly : Prop :=
  ∀ (a b : Config) (n : Nat) (s t : State), runStepsUnder a n s = .next t →
    ∃ u : State, runStepsUnder b n s = .next u ∧ u.tickcnt = t.tickcnt ∧ u.inputs = t.inputs

/-! ## The reference host -/

/-- R138: the Animator's hue after `n` iterations, always in range. -/
def Obligations.AnimatorHueAfterIterations : Prop :=
  ∀ (n : Nat) (a : Animator), a.inRange = true →
    (a.afterIterations n).hue = (a.hue + n * a.hueStep) % 1536 ∧ (a.afterIterations n).hue ≤ 1535

/-- R139 and R140: `n` iterations of the Animator, with either publication and no tick among them, run from every state and
leave the last hue's conversion in `RES` and in `DUTY`. That `inputs` stays is the model's own clause (assumption log 1). -/
def Obligations.AnimatorPublishesTheLastConversion : Prop :=
  ∀ (how : Publication) (n : Nat) (a : Animator) (s : State), a.inRange = true → 0 < n →
    ∃ t : State, execAll (Animator.animate how n a) s = .next t ∧
      convert machineConfig (BitVec.ofNat 11 (a.afterIterations n).hue) a.sat0 a.val0 = some t.res ∧
      t.duty = t.res ∧ t.tickcnt = s.tickcnt ∧ t.out = s.out ∧ t.inputs = s.inputs

/-- R143: the source's scenario. -/
def Obligations.ScenarioOf307Iterations : Prop :=
  (Animator.scenario.afterIterations 307).hue = 1535 ∧
  (Animator.scenario.afterIterations 308).hue = 4 ∧
  decode (.cmd 0x15FFC8FF) = .operation (.conv 1535 200 255) ∧
  indexTuple 1535 200 255 = some ⟨255, 55, 56, 55⟩ ∧
  indexTuple 0 200 255 = some ⟨255, 55, 55, 55⟩ ∧
  ∀ s : State, exec (.conv 1535 200 255) s =
    .next (s.withRes ⟨romByte 255, romByte 55, romByte 56, romByte 55⟩)
end

