-- ==== Sys2Proof/Laws/State.lean ====
section
/-! SUPPORT. One lemma per field per update of the state, and reading and writing a register file by channel. -/

namespace Sys2Proof.Machine

@[simp] theorem State.withRes_res (s : State) (v : PerChannel Byte) : (s.withRes v).res = v := rfl
@[simp] theorem State.withRes_duty (s : State) (v : PerChannel Byte) : (s.withRes v).duty = s.duty := rfl
@[simp] theorem State.withRes_tickcnt (s : State) (v : PerChannel Byte) : (s.withRes v).tickcnt = s.tickcnt := rfl
@[simp] theorem State.withRes_out (s : State) (v : PerChannel Byte) : (s.withRes v).out = s.out := rfl
@[simp] theorem State.withRes_inputs (s : State) (v : PerChannel Byte) : (s.withRes v).inputs = s.inputs := rfl

@[simp] theorem State.withDuty_res (s : State) (v : PerChannel Byte) : (s.withDuty v).res = s.res := rfl
@[simp] theorem State.withDuty_duty (s : State) (v : PerChannel Byte) : (s.withDuty v).duty = v := rfl
@[simp] theorem State.withDuty_tickcnt (s : State) (v : PerChannel Byte) : (s.withDuty v).tickcnt = s.tickcnt := rfl
@[simp] theorem State.withDuty_out (s : State) (v : PerChannel Byte) : (s.withDuty v).out = s.out := rfl
@[simp] theorem State.withDuty_inputs (s : State) (v : PerChannel Byte) : (s.withDuty v).inputs = s.inputs := rfl

@[simp] theorem State.withTickcnt_res (s : State) (v : Byte) : (s.withTickcnt v).res = s.res := rfl
@[simp] theorem State.withTickcnt_duty (s : State) (v : Byte) : (s.withTickcnt v).duty = s.duty := rfl
@[simp] theorem State.withTickcnt_tickcnt (s : State) (v : Byte) : (s.withTickcnt v).tickcnt = v := rfl
@[simp] theorem State.withTickcnt_out (s : State) (v : Byte) : (s.withTickcnt v).out = s.out := rfl
@[simp] theorem State.withTickcnt_inputs (s : State) (v : Byte) : (s.withTickcnt v).inputs = s.inputs := rfl

@[simp] theorem State.withOut_res (s : State) (v : PerChannel Bool) : (s.withOut v).res = s.res := rfl
@[simp] theorem State.withOut_duty (s : State) (v : PerChannel Bool) : (s.withOut v).duty = s.duty := rfl
@[simp] theorem State.withOut_tickcnt (s : State) (v : PerChannel Bool) : (s.withOut v).tickcnt = s.tickcnt := rfl
@[simp] theorem State.withOut_out (s : State) (v : PerChannel Bool) : (s.withOut v).out = v := rfl
@[simp] theorem State.withOut_inputs (s : State) (v : PerChannel Bool) : (s.withOut v).inputs = s.inputs := rfl

@[simp] theorem State.withInputs_res (s : State) (v : List Sampling) : (s.withInputs v).res = s.res := rfl
@[simp] theorem State.withInputs_duty (s : State) (v : List Sampling) : (s.withInputs v).duty = s.duty := rfl
@[simp] theorem State.withInputs_tickcnt (s : State) (v : List Sampling) : (s.withInputs v).tickcnt = s.tickcnt := rfl
@[simp] theorem State.withInputs_out (s : State) (v : List Sampling) : (s.withInputs v).out = s.out := rfl
@[simp] theorem State.withInputs_inputs (s : State) (v : List Sampling) : (s.withInputs v).inputs = v := rfl

@[simp] theorem State.clearRegisters_res (s : State) : s.clearRegisters.res = PerChannel.all 0 := rfl
@[simp] theorem State.clearRegisters_duty (s : State) : s.clearRegisters.duty = PerChannel.all 0 := rfl
@[simp] theorem State.clearRegisters_tickcnt (s : State) : s.clearRegisters.tickcnt = 0 := rfl
@[simp] theorem State.clearRegisters_out (s : State) : s.clearRegisters.out = PerChannel.all false := rfl
@[simp] theorem State.clearRegisters_inputs (s : State) : s.clearRegisters.inputs = s.inputs := rfl

@[simp] theorem State.ticked_res (s : State) : s.ticked.res = s.res := rfl
@[simp] theorem State.ticked_duty (s : State) : s.ticked.duty = s.duty := rfl
@[simp] theorem State.ticked_tickcnt (s : State) : s.ticked.tickcnt = nextCount s.tickcnt := rfl
@[simp] theorem State.ticked_out (s : State) : s.ticked.out = comparators s.duty (nextCount s.tickcnt) := rfl
@[simp] theorem State.ticked_inputs (s : State) : s.ticked.inputs = s.inputs := rfl

@[simp] theorem PerChannel.get_all {α : Type} (v : α) (c : Channel) : (PerChannel.all v).get c = v := by
  cases c <;> rfl

@[simp] theorem PerChannel.get_map {α β : Type} (f : α → β) (q : PerChannel α) (c : Channel) :
    (q.map f).get c = f (q.get c) := by
  cases c <;> rfl

@[simp] theorem PerChannel.get_set_same {α : Type} (q : PerChannel α) (c : Channel) (v : α) :
    (q.set c v).get c = v := by
  cases c <;> rfl

theorem PerChannel.get_set_other {α : Type} (q : PerChannel α) {c d : Channel} (v : α) (h : d ≠ c) :
    (q.set c v).get d = q.get d := by
  cases c <;> cases d <;> first | rfl | exact absurd rfl h

/-- Two register files with the same four registers are the same. -/
theorem PerChannel.ext_get {α : Type} {p q : PerChannel α} (h : ∀ c : Channel, p.get c = q.get c) : p = q := by
  cases p; cases q
  have hr := h .r; have hg := h .g; have hb := h .b; have hw := h .w
  simp only [PerChannel.get] at hr hg hb hw
  subst hr hg hb hw; rfl

/-- The counter after one increment, as a number (R121). -/
@[simp] theorem nextCount_toNat (c : Byte) : (nextCount c).toNat = (c.toNat + 1) % 256 := by
  simp [nextCount]

/-- A comparator is high iff the duty is above the counter (R122). -/
theorem dutyExceeds_iff (d c : Byte) : dutyExceeds d c = true ↔ c.toNat < d.toNat := by
  simp [dutyExceeds]

end Sys2Proof.Machine
end

