-- ==== Sys2Proof/Laws/Convert.lean ====
section
/-! SUPPORT. What the converter's shared functions can do: bounds of the index functions, when a row of the channel
table exists, and the forms of a conversion. -/

namespace Sys2Proof.Machine

theorem sextant_eq (hue : HueField) : sextant hue = hue.toNat / 256 := by
  simp [sextant, Nat.shiftRight_eq_div_pow]

theorem fraction_lt (hue : HueField) : fraction hue < 256 := Nat.mod_lt _ (by omega)

/-- The channel table has a row exactly for the sextants 0 to 5 (R94). -/
theorem roleRow_isSome (n : Nat) : (roleRow n).isSome = decide (n < 6) := by
  match n with
  | 0 | 1 | 2 | 3 | 4 | 5 => rfl
  | k + 6 => simp [roleRow]

theorem sextant_lt_iff (hue : HueField) : sextant hue < 6 ↔ hue.toNat ≤ 1535 := by
  rw [sextant_eq]; omega

/-- A hue in range has a row of the channel table. -/
theorem roleRow_of_hue (hue : HueField) (h : hue.toNat ≤ 1535) : ∃ row, roleRow (sextant hue) = some row := by
  have := roleRow_isSome (sextant hue)
  rw [decide_eq_true ((sextant_lt_iff hue).mpr h)] at this
  exact Option.isSome_iff_exists.mp this

/-- A hue out of range has none. -/
theorem roleRow_of_hue_out (hue : HueField) (h : 1535 < hue.toNat) : roleRow (sextant hue) = none := by
  have := roleRow_isSome (sextant hue)
  rw [decide_eq_false (by rw [sextant_lt_iff]; omega)] at this
  simpa using this

/-- A conversion in terms of its row. -/
theorem convert_of_row (cfg : Config) (hue : HueField) (sat val : Byte) {row : PerChannel Role}
    (h : roleRow (sextant hue) = some row) : convert cfg hue sat val = some (convertRow cfg row hue sat val) := by
  simp [convert, h]

/-- A conversion exists iff the hue is in range (R108). -/
theorem convert_isSome (cfg : Config) (hue : HueField) (sat val : Byte) :
    (convert cfg hue sat val).isSome = decide (hue.toNat ≤ 1535) := by
  by_cases h : hue.toNat ≤ 1535
  · obtain ⟨row, hr⟩ := roleRow_of_hue hue h
    simp [convert_of_row cfg hue sat val hr, h]
  · simp [convert, roleRow_of_hue_out hue (by omega), h]

/-- The form of `convert` on the machine: the general computation (R98). -/
theorem convert_machine (hue : HueField) (sat val : Byte) {row : PerChannel Role}
    (h : roleRow (sextant hue) = some row) :
    convert machineConfig hue sat val = some (assign row (dutyLevels machineConfig.curve hue sat val)) :=
  convert_of_row machineConfig hue sat val h

/-- Where neither the value nor the saturation is 0 the two modes are one (R99). -/
theorem convertRow_shortCircuit (curve : DimmingCurve) (row : PerChannel Role) (hue : HueField) {sat val : Byte}
    (hv : val ≠ 0) (hs : sat ≠ 0) :
    convertRow ⟨curve, .shortCircuit⟩ row hue sat val = convertRow ⟨curve, .fallThrough⟩ row hue sat val := by
  simp only [convertRow, if_neg hv, if_neg hs]

/-- Each channel of an assignment is one of the three levels. -/
theorem assign_get {α : Type} (row : PerChannel Role) (l : Levels α) (c : Channel) :
    (assign row l).get c = l.ofRole (row.get c) := by
  simp [assign]

/-- `CONV` under a configuration answers a next state iff a conversion exists, and then only `RES` is written. -/
theorem execConvUnder_eq_next {cfg : Config} {hue : HueField} {sat val : Byte} {s t : State} :
    execConvUnder cfg hue sat val s = .next t ↔ ∃ q, convert cfg hue sat val = some q ∧ t = s.withRes q := by
  unfold execConvUnder
  cases convert cfg hue sat val <;> simp [eq_comm]

/-- With the same conversion of its operands, `CONV` is the same under two configurations. -/
theorem execConvUnder_congr {a b : Config} {hue : HueField} {sat val : Byte}
    (h : convert a hue sat val = convert b hue sat val) (s : State) :
    execConvUnder a hue sat val s = execConvUnder b hue sat val s := by
  simp only [execConvUnder, h]

/-- `CONV` answers a next state iff a conversion exists, and then only `RES` is written (R80). -/
theorem execConv_eq_next {hue : HueField} {sat val : Byte} {s t : State} :
    execConv hue sat val s = .next t ↔ ∃ q, convert machineConfig hue sat val = some q ∧ t = s.withRes q :=
  execConvUnder_eq_next

/-- A product of a byte and a complement of a byte. -/
theorem product_le (val nf : Nat) (hn : nf ≤ 255) : val * nf ≤ 255 * val := by
  calc val * nf ≤ val * 255 := Nat.mul_le_mul_left _ hn
    _ = 255 * val := Nat.mul_comm _ _

theorem fraw_le (sat fraction parity : Nat) (hf : fraction ≤ 256) : fraw sat fraction parity ≤ 256 * sat := by
  unfold fraw
  split
  · calc sat * (256 - fraction) ≤ sat * 256 := Nat.mul_le_mul_left _ (by omega)
      _ = 256 * sat := Nat.mul_comm _ _
  · calc sat * fraction ≤ sat * 256 := Nat.mul_le_mul_left _ hf
      _ = 256 * sat := Nat.mul_comm _ _

end Sys2Proof.Machine
end

