-- ==== Sys2Proof/Laws/Decode.lean ====
section
/-! SUPPORT. What the command decoder can answer, said once in numbers (spec/30_encoding.md R61 to R67). -/

namespace Sys2Proof

/-- The opcode field as a number. -/
theorem opField_eq_iff (w : Word32) (k : Nat) (hk : k < 16) :
    opField w = BitVec.ofNat 4 k ↔ w.toNat / 2 ^ 28 = k := by
  unfold opField
  rw [← BitVec.toNat_inj]
  have := w.isLt
  simp only [BitVec.extractLsb'_toNat, Nat.shiftRight_eq_div_pow, BitVec.toNat_ofNat]
  rw [Nat.mod_eq_of_lt (by omega), Nat.mod_eq_of_lt (by omega)]

/-- A field is zero iff the number's digits there are. -/
theorem field_eq_zero_iff (w : Word32) (start len : Nat) :
    w.extractLsb' start len = 0 ↔ w.toNat / 2 ^ start % 2 ^ len = 0 := by
  rw [← BitVec.toNat_inj]
  simp [BitVec.extractLsb'_toNat, Nat.shiftRight_eq_div_pow]

/-- The nine answers of the decoder for a command word. -/
theorem decodeCommand_cases (w : Word32) :
    (w.toNat / 2 ^ 28 = 0 ∧ w.toNat % 2 ^ 28 = 0 ∧ decodeCommand w = .operation .nop) ∨
    (w.toNat / 2 ^ 28 = 0 ∧ w.toNat % 2 ^ 28 ≠ 0 ∧ decodeCommand w = .rejected .nopReservedBits) ∨
    (w.toNat / 2 ^ 28 = 1 ∧ w.toNat / 2 ^ 27 % 2 = 0 ∧
      decodeCommand w = .operation (.conv (w.extractLsb' 16 11) (w.extractLsb' 8 8) (w.extractLsb' 0 8))) ∨
    (w.toNat / 2 ^ 28 = 1 ∧ w.toNat / 2 ^ 27 % 2 = 1 ∧ decodeCommand w = .rejected .convReservedBit) ∨
    (w.toNat / 2 ^ 28 = 2 ∧ w.toNat % 2 ^ 28 = 0 ∧ decodeCommand w = .operation .pub) ∨
    (w.toNat / 2 ^ 28 = 2 ∧ w.toNat % 2 ^ 28 ≠ 0 ∧ decodeCommand w = .rejected .pubReservedBits) ∨
    (w.toNat / 2 ^ 28 = 3 ∧ w.toNat / 2 ^ 2 % 2 ^ 26 = 0 ∧
      decodeCommand w = .operation (.pubc (Channel.ofNumber (w.extractLsb' 0 2)))) ∨
    (w.toNat / 2 ^ 28 = 3 ∧ w.toNat / 2 ^ 2 % 2 ^ 26 ≠ 0 ∧ decodeCommand w = .rejected .pubcReservedBits) ∨
    (4 ≤ w.toNat / 2 ^ 28 ∧ decodeCommand w = .rejected (.reservedOpcode (opField w))) := by
  have h0 : opField w = 0 ↔ _ := opField_eq_iff w 0 (by omega)
  have h1 : opField w = 1 ↔ _ := opField_eq_iff w 1 (by omega)
  have h2 : opField w = 2 ↔ _ := opField_eq_iff w 2 (by omega)
  have h3 : opField w = 3 ↔ _ := opField_eq_iff w 3 (by omega)
  have z := field_eq_zero_iff w 0 28
  have c := field_eq_zero_iff w 27 1
  have p := field_eq_zero_iff w 2 26
  rw [pow_zero, Nat.div_one] at z
  rw [pow_one] at c
  simp only [decodeCommand, decodeFormatZ, decodeFormatC, decodeFormatP, h0, h1, h2, h3, z, c, p]
  rcases lt_or_ge (w.toNat / 2 ^ 28) 4 with h | h
  · have hc := Nat.mod_two_eq_zero_or_one (w.toNat / 2 ^ 27)
    interval_cases hk : w.toNat / 2 ^ 28 <;> simp
    · exact em _
    · rcases hc with hc | hc <;> norm_num at hc <;> simp [hc]
    · exact em _
    · exact em _
  · rw [if_neg (by omega), if_neg (by omega), if_neg (by omega), if_neg (by omega)]
    exact .inr (.inr (.inr (.inr (.inr (.inr (.inr (.inr ⟨h, rfl⟩)))))))

end Sys2Proof
end

