-- ==== Sys2Proof/Laws/Exec.lean ====
section
/-! SUPPORT. Inversion: what an operation, a port word and a machine step can do, said once. -/

namespace Sys2Proof.Machine

/-- If an operation answers a next state, it is one of these six cases. -/
theorem exec_next_cases {i : Instr} {s t : State} (h : exec i s = .next t) :
    (i = .nop ∧ t = s) ∨
    (∃ hue sat val q, i = .conv hue sat val ∧ convert machineConfig hue sat val = some q ∧ t = s.withRes q) ∨
    (i = .pub ∧ t = s.withDuty s.res) ∨
    (∃ ch, i = .pubc ch ∧ t = s.withDuty (s.duty.set ch (s.res.get ch))) ∨
    (i = .tick ∧ t = s.ticked) ∨
    (i = .reset ∧ t = s.clearRegisters) := by
  cases i with
  | nop => left; exact ⟨rfl, by cases h; rfl⟩
  | conv hue sat val =>
    obtain ⟨q, hq, rfl⟩ := execConv_eq_next.mp h
    exact .inr (.inl ⟨hue, sat, val, q, rfl, hq, rfl⟩)
  | pub => exact .inr (.inr (.inl ⟨rfl, by cases h; rfl⟩))
  | pubc ch => exact .inr (.inr (.inr (.inl ⟨ch, rfl, by cases h; rfl⟩)))
  | tick => exact .inr (.inr (.inr (.inr (.inl ⟨rfl, by cases h; rfl⟩))))
  | reset => exact .inr (.inr (.inr (.inr (.inr ⟨rfl, by cases h; rfl⟩))))

/-- If a port word answers a next state, it is the effect of the operation it decodes to, or nothing (R67). -/
theorem execWord_next_cases {p : PortWord} {s t : State} (h : execWord p s = .next t) :
    (∃ i, decode p = .operation i ∧ exec i s = .next t) ∨ (∃ why, decode p = .rejected why ∧ t = s) := by
  unfold execWord wordStep at h
  split at h
  · exact .inl ⟨_, by assumption, h⟩
  · exact .inr ⟨_, by assumption, by cases h; rfl⟩

/-- A port word that decodes to an operation is that operation. -/
theorem execWord_operation {p : PortWord} {i : Instr} (h : decode p = .operation i) (s : State) :
    execWord p s = exec i s := by
  simp [execWord, wordStep, h]

/-- A port word that selects no operation changes nothing (R67). -/
theorem execWord_rejected {p : PortWord} {why : Reject} (h : decode p = .rejected why) (s : State) :
    execWord p s = .next s := by
  simp [execWord, wordStep, h, execRejected]

@[simp] theorem takeWord_nil (s : State) (h : s.inputs = []) : s.takeWord = (none, s) := by
  simp [State.takeWord, h]

theorem takeWord_cons {s : State} {p : Sampling} {rest : List Sampling} (h : s.inputs = p :: rest) :
    s.takeWord = (p.takeFirst.1, s.withInputs (p.takeFirst.2 ++ rest)) := by
  simp [State.takeWord, h]

/-- Taking an operation touches no register. -/
theorem takeWord_sameRegisters (s : State) :
    s.takeWord.2.res = s.res ∧ s.takeWord.2.duty = s.duty ∧ s.takeWord.2.tickcnt = s.tickcnt ∧
      s.takeWord.2.out = s.out := by
  cases h : s.inputs <;> simp [State.takeWord, h]

/-- What a machine step can do: nothing, or one port word after the input ports were read. -/
theorem step_next_cases {s t : State} (h : step s = .next t) :
    t = s.takeWord.2 ∨ ∃ p, execWord p s.takeWord.2 = .next t := by
  unfold step portStep at h
  split at h
  · next u heq => left; cases h; simp [heq]
  · next p u heq => right; exact ⟨p, by simpa [heq] using h⟩

@[simp] theorem andThen_next (t : State) (f : State → Result) : Result.andThen (.next t) f = f t := rfl

@[simp] theorem execAll_nil (s : State) : execAll [] s = .next s := rfl

theorem execAll_cons (i : Instr) (rest : List Instr) (s : State) :
    execAll (i :: rest) s = Result.andThen (exec i s) (execAll rest) := rfl

/-- A run over two lists is a run over the first and then over the second. -/
theorem execAll_append (xs ys : List Instr) (s : State) :
    execAll (xs ++ ys) s = Result.andThen (execAll xs s) (execAll ys) := by
  induction xs generalizing s with
  | nil => rfl
  | cons i rest ih =>
    simp only [List.cons_append, execAll_cons]
    cases exec i s <;> simp [Result.andThen, ih]

@[simp] theorem runSteps_zero (s : State) : runSteps 0 s = .next s := rfl

theorem runSteps_succ (n : Nat) (s : State) : runSteps (n + 1) s = Result.andThen (step s) (runSteps n) := rfl

/-! Under a configuration (R10, R38). -/

/-- The machine is the machine under its own configuration: operation, port word, step, run. -/
theorem execUnder_machineConfig : execUnder machineConfig = exec := by
  funext i s; cases i <;> rfl

theorem execWordUnder_machineConfig : execWordUnder machineConfig = execWord := by
  funext p s; simp only [execWordUnder, execWord, execUnder_machineConfig]

theorem execAllUnder_machineConfig : execAllUnder machineConfig = execAll := by
  funext ops s; simp only [execAllUnder, execAll, execUnder_machineConfig]

theorem stepUnder_machineConfig : stepUnder machineConfig = step := by
  funext s; simp only [stepUnder, step, execWordUnder_machineConfig]

theorem runStepsUnder_machineConfig : runStepsUnder machineConfig = runSteps := by
  funext n s; simp only [runStepsUnder, runSteps, stepUnder_machineConfig]

/-- An operation that is no `CONV` is the same under every configuration. -/
theorem execUnder_of_not_conv (cfg : Config) {i : Instr} (h : ∀ hue sat val, i ≠ .conv hue sat val) (s : State) :
    execUnder cfg i s = exec i s := by
  cases i with
  | conv hue sat val => exact absurd rfl (h hue sat val)
  | _ => rfl

@[simp] theorem execAllUnder_nil (cfg : Config) (s : State) : execAllUnder cfg [] s = .next s := rfl

theorem execAllUnder_cons (cfg : Config) (i : Instr) (rest : List Instr) (s : State) :
    execAllUnder cfg (i :: rest) s = Result.andThen (execUnder cfg i s) (execAllUnder cfg rest) := rfl

theorem runStepsUnder_succ (cfg : Config) (n : Nat) (s : State) :
    runStepsUnder cfg (n + 1) s = Result.andThen (stepUnder cfg s) (runStepsUnder cfg n) := rfl

/-- One step more of any machine, by the outcome of its step. -/
theorem run_succ_next (M : Host.Core) (n : Nat) (s t : M.State) (h : M.step s = .next t) :
    M.run (n + 1) s = M.run n t := by
  simp only [Host.Core.run, h]

theorem run_succ_fault (M : Host.Core) (n : Nat) (s : M.State) (r : M.Fault) (h : M.step s = .fault r) :
    M.run (n + 1) s = .fault r := by
  simp only [Host.Core.run, h]

theorem run_succ_refused (M : Host.Core) (n : Nat) (s : M.State) (r : M.Refusal) (h : M.step s = .refused r) :
    M.run (n + 1) s = .refused r := by
  simp only [Host.Core.run, h]

/-- The host's `Core.run` of this machine is `runSteps`. -/
theorem core_run (n : Nat) (s : State) : Host.Core.run Sys2Proof.core n s = runSteps n s := by
  induction n generalizing s with
  | zero => rfl
  | succ n ih =>
    rw [runSteps_succ]
    cases h : step s with
    | next t => exact (run_succ_next Sys2Proof.core n s t h).trans (ih t)
    | fault r => exact run_succ_fault Sys2Proof.core n s r h
    | refused r => exact run_succ_refused Sys2Proof.core n s r h

/-- An operation reads nothing of what the ports present next, and leaves it as it is. -/
theorem exec_withInputs (i : Instr) (s : State) (q : List Sampling) :
    exec i (s.withInputs q) = Result.andThen (exec i s) (fun t => .next (t.withInputs q)) := by
  cases i with
  | conv hue sat val =>
    simp only [exec, execConv, execConvUnder]
    split <;> rfl
  | _ => rfl

/-- An operation in range runs to a next state. -/
theorem exec_wellFormed_next (i : Instr) (s : State) (h : i.wellFormed = true) : ∃ t, exec i s = .next t := by
  cases i with
  | conv hue sat val =>
    have h' : hue.toNat ≤ 1535 := of_decide_eq_true h
    obtain ⟨row, hr⟩ := roleRow_of_hue hue h'
    exact ⟨_, execConv_eq_next.mpr ⟨_, convert_machine hue sat val hr, rfl⟩⟩
  | _ => exact ⟨_, rfl⟩

end Sys2Proof.Machine
end

