-- ==== Sys2Proof/Laws/PerInstr.lean ====
section
/-! SUPPORT. Facts about every operation as syntax, one lemma per constructor. -/

namespace Sys2Proof.Laws

/-- The bits of a port word as the opcode table numbers them: a command word's 32, a strobe's one. -/
def portBits : PortWord → Word32
  | .cmd w => w
  | .tick level => level.zeroExtend 32
  | .rst level => level.zeroExtend 32

/-- The mask of an operation's row in spec/opcode_table.json (R65). -/
def rowMask : Instr → Word32
  | .nop => 0xFFFFFFFF
  | .conv _ _ _ => 0xF8000000
  | .pub => 0xFFFFFFFF
  | .pubc _ => 0xFFFFFFFC
  | .tick => 0x1
  | .reset => 0x1

/-- The match of an operation's row in spec/opcode_table.json (R65). -/
def rowMatch : Instr → Word32
  | .nop => 0x00000000
  | .conv _ _ _ => 0x10000000
  | .pub => 0x20000000
  | .pubc _ => 0x30000000
  | .tick => 0x1
  | .reset => 0x1

/-- What presents an operation has the bits of the operation's own row. -/
def EncodeMatchesRow.Statement (i : Instr) : Prop := portBits (encode i) &&& rowMask i = rowMatch i

theorem EncodeMatchesRow.nop : EncodeMatchesRow.Statement .nop := by
  unfold EncodeMatchesRow.Statement; decide

theorem EncodeMatchesRow.conv (hue : HueField) (sat val : Byte) :
    EncodeMatchesRow.Statement (.conv hue sat val) := by
  show ((0x1#4 ++ 0#1 ++ hue ++ sat ++ val : Word32) &&& 0xF8000000) = 0x10000000
  apply BitVec.eq_of_getLsbD_eq
  intro k hk
  simp only [BitVec.getLsbD_and, BitVec.getLsbD_append]
  interval_cases k <;> simp

theorem EncodeMatchesRow.pub : EncodeMatchesRow.Statement .pub := by
  unfold EncodeMatchesRow.Statement; decide

theorem EncodeMatchesRow.pubc (ch : Channel) : EncodeMatchesRow.Statement (.pubc ch) := by
  cases ch <;> (unfold EncodeMatchesRow.Statement; decide)

theorem EncodeMatchesRow.tick : EncodeMatchesRow.Statement .tick := by
  unfold EncodeMatchesRow.Statement; decide

theorem EncodeMatchesRow.reset : EncodeMatchesRow.Statement .reset := by
  unfold EncodeMatchesRow.Statement; decide

end Sys2Proof.Laws
end

