-- ==== Sys2Proof/Tests/Slice0.lean ====
section
/-! SUPPORT. The model's own tests: words written out from the spec's encodings, vectors of spec/95_test_vectors.md (each
named in its comment), and for every obligation with hypotheses a concrete witness that meets them. -/

namespace Sys2Proof.Tests

open Sys2Proof Sys2Proof.Machine

/-! ## Fixtures (spec/92_eei_decisions.md D24) -/

/-- `CURVE_ID`: the identity, a fixture and not the hardware's table. -/
def curveId : DimmingCurve where
  table a := a
  first := by decide
  last := by decide
  rising := byte_ofNat_le_succ

/-- `CURVE_SQ[i] = floor((i*i + 127) / 255)`: a fixture and not the hardware's table. -/
def curveSq : DimmingCurve where
  table a := BitVec.ofNat 8 ((a.toNat * a.toNat + 127) / 255)
  first := by decide
  last := by decide
  rising := by
    intro i hi
    simp only [BitVec.toNat_ofNat]
    interval_cases i <;> decide

/-- The next state of an outcome, if it has one. -/
def after (o : Result) : Option State :=
  match o with
  | .next t => some t
  | _ => none

/-- The start state of vectors S1 to S9. -/
def sStart : State := ⟨⟨10, 20, 30, 40⟩, ⟨1, 2, 3, 4⟩, 77, ⟨true, false, true, false⟩, []⟩

/-- A state with given `DUTY` and counter. -/
def tStart (duty : PerChannel Byte) (count : Byte) : State := ⟨.all 0, duty, count, .all false, []⟩

/-- A sampling that presents one command word. -/
def presents (w : Word32) : Sampling := ⟨false, false, true, w⟩

/-! ## WellFormed: the ill-formed terms are refused -/

theorem test_wellFormed_refuses_hue_1536 : (Instr.conv 1536 0 0).wellFormed = false := by decide
theorem test_wellFormed_accepts_hue_1535 : (Instr.conv 1535 255 255).wellFormed = true := by decide

/-! ## Decoding: words written out field by field from R61 to R65 -/

theorem test_decode_nop : decode (.cmd (0b0000#4 ++ 0#28)) = .operation .nop := by decide
/-- R109: op 1, reserved 0, hue 0x384, sat 0x25, val 0xD3. -/
theorem test_decode_conv :
    decode (.cmd (0b0001#4 ++ 0b0#1 ++ 0b01110000100#11 ++ 0b00100101#8 ++ 0b11010011#8)) =
      .operation (.conv 900 37 211) := by decide
theorem test_decode_pub : decode (.cmd (0b0010#4 ++ 0#28)) = .operation .pub := by decide
theorem test_decode_pubc : decode (.cmd (0b0011#4 ++ 0#26 ++ 0b11#2)) = .operation (.pubc .w) := by decide
theorem test_decode_tick : decode (.tick 0b1) = .operation .tick := by decide
theorem test_decode_reset : decode (.rst 0b1) = .operation .reset := by decide
theorem test_decode_table_rows :
    [decodeTableWord 32 0, decodeTableWord 32 0x10000000, decodeTableWord 32 0x20000000,
      decodeTableWord 32 0x30000000, decodeTableWord 8 1, decodeTableWord 8 2] =
    [some .nop, some (.conv 0 0 0), some .pub, some (.pubc .r), some .tick, some .reset] := by decide
/-- Section 2.2 of the vectors: the reserved words. -/
theorem test_decode_reserved :
    [0x18000000, 0x1FFFFFFF, 0x00000001, 0x20000001, 0x30000004, 0x38000000, 0x40000000, 0xFFFFFFFF].map
      (fun w => decode (.cmd w)) =
    [.rejected .convReservedBit, .rejected .convReservedBit, .rejected .nopReservedBits,
      .rejected .pubReservedBits, .rejected .pubcReservedBits, .rejected .pubcReservedBits,
      .rejected (.reservedOpcode 4), .rejected (.reservedOpcode 15)] := by decide

/-! ## Single steps -/

/-- S1. -/
theorem test_nop : after (exec .nop sStart) = some sStart := by decide
/-- S2. -/
theorem test_pub : after (exec .pub sStart) = some { sStart with duty := ⟨10, 20, 30, 40⟩ } := by decide
/-- S4. -/
theorem test_pubc_b : after (exec (.pubc .b) sStart) = some { sStart with duty := ⟨1, 2, 30, 4⟩ } := by decide
/-- S5. -/
theorem test_pubc_w : after (exec (.pubc .w) sStart) = some { sStart with duty := ⟨1, 2, 3, 40⟩ } := by decide
/-- S6. -/
theorem test_reset : after (exec .reset sStart) = some State.reset := by decide
/-- S8. -/
theorem test_reserved_word : after (execWord (.cmd 0x40000000) sStart) = some sStart := by decide
/-- S9 under `CURVE_ID`. -/
theorem test_conv_state :
    after (execConvUnder ⟨curveId, .fallThrough⟩ 900 37 211 sStart) =
      some { sStart with res := ⟨180, 194, 211, 180⟩ } := by decide
/-- T2: the wrap to 0. -/
theorem test_tick_wrap :
    (after (exec .tick (tStart ⟨0, 1, 128, 255⟩ 255))).map (fun t => (t.tickcnt, t.out)) =
      some (0, ⟨false, true, true, true⟩) := by decide
/-- T6: strictly greater, and R123: the incremented count is compared. -/
theorem test_tick_strict :
    (after (exec .tick (tStart ⟨128, 127, 129, 0⟩ 127))).map (fun t => (t.tickcnt, t.out)) =
      some (128, ⟨false, false, true, false⟩) := by decide

/-! ## Conversions: V22, V23, V28 under both curves and modes -/

theorem test_convert_v22 : convert ⟨curveSq, .fallThrough⟩ 100 100 100 = some ⟨39, 22, 14, 14⟩ := by decide
theorem test_convert_v20 : convert ⟨curveSq, .fallThrough⟩ 511 145 248 = some ⟨46, 241, 44, 44⟩ := by decide
theorem test_convert_v32 : convert ⟨curveId, .fallThrough⟩ 640 128 128 = some ⟨63, 128, 95, 63⟩ := by decide
theorem test_convert_v28 : convert ⟨curveSq, .fallThrough⟩ 1535 0 200 = some ⟨157, 157, 155, 157⟩ := by decide
theorem test_convert_v28_short : convert ⟨curveSq, .shortCircuit⟩ 1535 0 200 = some (.all 200) := by decide
/-- R99 on the machine's ports: `CONV 0, 0, 2` and a `PUB`, presented in two samplings, under `SHORTCIRCUIT`. -/
theorem test_run_short :
    after (runStepsUnder ⟨curveSq, .shortCircuit⟩ 2
      (State.reset.withInputs [presents 0x10000002, presents 0x20000000])) =
      some ⟨.all 2, .all 2, 0, .all false, []⟩ := by decide
/-- R24: under `SHORTCIRCUIT` the range invariant does not hold: a grey can be a byte that `CURVE_SQ` never gives. -/
theorem test_range_fails_short : ∃ v : Byte, convert ⟨curveSq, .shortCircuit⟩ 0 0 v = some (.all v) ∧
    ∀ a : Byte, curveSq.table a ≠ v := ⟨254, by decide, by decide⟩
/-- Vectors of C1: `BOT` is not rounding to nearest. -/
theorem test_bot_rounds_down : (bot 1 127, bot 128 128, bot 200 100) = (0, 63, 121) := by decide

/-! ## Ports (C11, R75) and one sampling with a tick and a command (R158) -/

theorem test_out_port_order : ({ sStart with out := ⟨true, false, false, false⟩ } : State).outPort = 0b0001 := by decide
/-- The tick of the sampling sees the old `DUTY` (all 0), the `PUB` of the same sampling comes after it. -/
theorem test_tick_before_pub :
    after (runSteps 2 { State.reset with res := .all 9, inputs := [⟨false, true, true, 0x20000000⟩] }) =
      some ⟨.all 9, .all 9, 1, .all false, []⟩ := by decide
/-- R140: `ANIM 2` with the scenario's constants. -/
theorem test_anim_two :
    Animator.animate .fieldByField 2 Animator.scenario =
      .conv 5 200 255 :: pubSeq ++ (.conv 10 200 255 :: pubSeq) := by decide

/-! ## Witnesses of the obligations' hypotheses -/

theorem witness_EncodeOfDecodedIsTheWord : decode (.cmd 0x30000003) = .operation (.pubc .w) := by decide

theorem witness_ReservedWordsChangeNothing :
    decode (.cmd 0x40000000) = .rejected (.reservedOpcode 4) ∧ decode (.cmd 0x0FFFFFFF) = .rejected .nopReservedBits ∧
      decode (.cmd 0x20000001) = .rejected .pubReservedBits ∧ decode (.cmd 0x18000000) = .rejected .convReservedBit ∧
      decode (.cmd 0x30000004) = .rejected .pubcReservedBits := by
  decide

theorem witness_OutOfRangeHueIsRefused :
    (0x16000000 : Word32) &&& 0xF8000000 = 0x10000000 ∧ (0x16000000 : Word32).toNat / 2 ^ 25 % 4 = 3 ∧
      1536 ≤ (1536 : HueField).toNat := by
  decide

theorem witness_StepRunsTheDecodedOperation :
    (State.reset.withInputs [presents 0x20000000]).inputs = presents 0x20000000 :: [] ∧
      (presents 0x20000000).takeFirst.1 = some (.cmd 0x20000000) ∧ decode (.cmd 0x20000000) = .operation .pub := by
  decide

/-- One sampling for each of the five clauses. -/
theorem witness_SamplingYieldsItsSteps :
    (State.reset.withInputs [⟨true, true, true, 0x20000000⟩]).inputs = ⟨true, true, true, 0x20000000⟩ :: [] ∧
      (State.reset.withInputs [⟨false, true, false, 0⟩]).inputs = ⟨false, true, false, 0⟩ :: [] ∧
      (State.reset.withInputs [⟨false, false, true, 0⟩]).inputs = ⟨false, false, true, 0⟩ :: [] ∧
      (State.reset.withInputs [⟨false, true, true, 0⟩]).inputs = ⟨false, true, true, 0⟩ :: [] ∧
      (State.reset.withInputs [⟨false, false, false, 0⟩]).inputs = ⟨false, false, false, 0⟩ :: [] := by
  decide

theorem witness_IdleBlockKeepsItsState : sStart.inputs = [] := by decide

theorem witness_TableWordIsTheNextOperation :
    decodeTableWord 32 0x15FFC8FF = some (.conv 1535 200 255) ∧ decodeTableWord 8 1 = some .tick := by
  decide

theorem witness_PublishBeforeConvertIsDark :
    ∀ i ∈ [Instr.nop, .tick, .pub, .pubc .w], i = .nop ∨ i = .tick ∨ i = .pub ∨ ∃ ch, i = .pubc ch := by
  intro i hi
  simp only [List.mem_cons, List.not_mem_nil, or_false] at hi
  rcases hi with rfl | rfl | rfl | rfl
  · exact .inl rfl
  · exact .inr (.inl rfl)
  · exact .inr (.inr (.inl rfl))
  · exact .inr (.inr (.inr ⟨.w, rfl⟩))

theorem witness_FieldWritesInAnyOrderArePub : List.Perm [Channel.w, .b, .g, .r] [.r, .g, .b, .w] := by decide

/-- The boundary hue of every statement about `CONV` in range: `PublicationShowsAtTheNextTick`,
`ConvWritesTheConversion`, `ConvComputesTheLevels`, `WhiteIsTheBottomLevel`, `ConvReadsNoState`, `ZeroValueIsDark`,
`ZeroSaturationKeepsTheRamp`, `ShortCircuitMode`, `ShortCircuitGreyReachesTheOutputs`, `ConversionStaysInRange`. -/
theorem witness_HueInRange : (1535 : HueField).toNat ≤ 1535 ∧ (0 : HueField).toNat ≤ 1535 := by decide

theorem witness_ConvWritesTheConversion :
    (1535 : HueField).toNat ≤ 1535 ∧ 1536 ≤ (1536 : HueField).toNat ∧ ∀ a : Byte, curveId.table a = a :=
  ⟨by decide, by decide, fun _ => rfl⟩

/-- A hue in each of the six sextants. -/
theorem witness_ConvComputesTheLevels :
    (255 : HueField).toNat / 256 = 0 ∧ (256 : HueField).toNat / 256 = 1 ∧ (767 : HueField).toNat / 256 = 2 ∧
      (768 : HueField).toNat / 256 = 3 ∧ (1279 : HueField).toNat / 256 = 4 ∧ (1535 : HueField).toNat / 256 = 5 := by
  decide

/-- A hue under each clause: 511; 512 and 1023; 1024. -/
theorem witness_WhiteIsTheBottomLevel :
    (511 : HueField).toNat < 512 ∧ 512 ≤ (512 : HueField).toNat ∧ (1023 : HueField).toNat < 1024 ∧
      1024 ≤ (1024 : HueField).toNat := by
  decide

theorem witness_EndsOfTheDutyRange :
    (tStart ⟨0, 255, 0, 0⟩ 254).duty.get .r = 0 ∧ (tStart ⟨0, 255, 0, 0⟩ 254).duty.get .g = 255 := by decide

theorem witness_CounterCountsTicks : 0 < 1 := by decide

theorem witness_DutyChangeInsideAPeriod : (tStart (.all 200) 255).tickcnt = 255 ∧ 100 ≤ 256 ∧ 256 ≤ 256 := by decide

/-- Before the wrap tick every output with a duty is low and then high; at count 9 a duty of 10 falls. -/
theorem witness_OutputsRiseAtTheWrapOnly :
    (tStart (.all 10) 255).out = comparators (tStart (.all 10) 255).duty (tStart (.all 10) 255).tickcnt ∧
      (tStart (.all 10) 255).out.get .r = false ∧
      ((after (exec .tick (tStart (.all 10) 255))).map (fun t => t.out.get .r)) = some true ∧
      ({ tStart (.all 10) 9 with out := .all true } : State).out = comparators (.all 10) 9 ∧
      ((after (exec .tick { tStart (.all 10) 9 with out := .all true })).map (fun t => t.out.get .r)) = some false := by
  decide

theorem witness_OutputsHoldBetweenTicks :
    (∀ i ∈ [Instr.nop, .pub, .pubc .g], i ≠ .tick ∧ i ≠ .reset) ∧
      after (execAll [.nop, .pub, .pubc .g] sStart) = some { sStart with duty := ⟨10, 20, 30, 40⟩ } := by
  decide

theorem witness_TicksAfterResetStayDark : (1 = 1) ∧ (0 < 255 ∧ 255 < 256) ∧ (256 = 256) := by decide

/-- Two different curves that agree at the three addresses of the all-zero conversion. -/
theorem witness_ConvReadsTheRomAtItsAddresses :
    (∀ x ∈ romAddresses .fallThrough 0 0 0, curveId.table x = curveSq.table x) ∧
      curveId.table 100 ≠ curveSq.table 100 ∧ ((0 : Byte) = 0 ∨ (7 : Byte) = 0) := by
  decide

theorem witness_ZeroSaturationKeepsTheRamp :
    (1023 : HueField).toNat / 256 = 3 ∧ (256 : HueField).toNat / 256 = 1 ∧ (1535 : HueField).toNat / 256 = 5 := by decide

theorem witness_ShortCircuitMode : (200 : Byte) ≠ 0 ∧ (0 : Byte) = 0 ∧ (1 : Byte) ≠ 0 := by decide

theorem witness_IndicesStayInBounds : 0 < (1 : Byte).toNat := by decide

theorem witness_RampMovesByAtMostOne : 254 < 255 := by decide

/-- The wrap from 1535 to 0, a boundary from an even to an odd sextant, and a place inside a sextant. -/
theorem witness_HueStepMovesTheIndicesLittle :
    (0 : HueField).toNat = ((1535 : HueField).toNat + 1) % 1536 ∧ (256 : HueField).toNat = ((255 : HueField).toNat + 1) % 1536 ∧
      (255 : HueField).toNat % 512 ≠ 511 ∧ (254 : HueField).toNat % 256 ≠ 255 := by
  decide

theorem witness_RegistersChangeOnlyByTheirOwners :
    after (exec .tick sStart) = some sStart.ticked ∧ sStart.ticked.tickcnt ≠ sStart.tickcnt ∧
      after (exec .pub sStart) = some (sStart.withDuty sStart.res) ∧
      (sStart.withDuty sStart.res).duty.get .r ≠ sStart.duty.get .r ∧
      after (exec .reset sStart) = some sStart.clearRegisters ∧ sStart.clearRegisters.res ≠ sStart.res ∧
      sStart.clearRegisters.out ≠ sStart.out := by
  decide

theorem witness_TickReadsTheLatestPublishedByte :
    (∀ i ∈ [Instr.pubc .g, .tick], i ≠ .pub ∧ i ≠ .pubc .r ∧ i ≠ .reset) ∧
      (after (execAll [.pubc .g, .tick] sStart)).isSome = true := by
  decide

theorem witness_TornReadShowsOldOrNewBytes :
    ∀ i ∈ [Instr.pubc .w, .tick, .pubc .r], i = .tick ∨ ∃ ch, i = .pubc ch := by
  intro i hi
  simp only [List.mem_cons, List.not_mem_nil, or_false] at hi
  rcases hi with rfl | rfl | rfl
  · exact .inr ⟨.w, rfl⟩
  · exact .inl rfl
  · exact .inr ⟨.r, rfl⟩

theorem witness_AtomicPublicationIsNeverTorn : ∀ i ∈ [Instr.tick, .pub, .tick], i = .tick ∨ i = .pub := by decide

theorem witness_TicksLeaveTheHostsData :
    TicksAmong [.pubc .r, .pubc .g] 1 [.pubc .r, .tick, .pubc .g] ∧
      after (execAll [.pubc .r, .pubc .g] sStart) = some { sStart with duty := ⟨10, 20, 3, 4⟩ } ∧
      ∀ i ∈ [Instr.pubc .r, .pubc .g], i ≠ .tick ∧ i ≠ .reset :=
  ⟨.host (.tick (.host .done)), by decide, by decide⟩

/-- A state whose registers hold the conversion of hue 0, full saturation and value, published in part. -/
def litState : State := ⟨⟨255, 0, 0, 0⟩, ⟨255, 0, 0, 0⟩, 3, ⟨true, false, false, false⟩, [presents 0x30000001]⟩

theorem romByte_ends : romByte 0 = 0 ∧ romByte 255 = 255 := ⟨machineConfig.curve.first, machineConfig.curve.last⟩

theorem isConversion_red : IsConversion ⟨255, 0, 0, 0⟩ := by
  refine ⟨0, 255, 255, ?_⟩
  have h : convert machineConfig 0 255 255 = some ⟨romByte 255, romByte 0, romByte 0, romByte 0⟩ := rfl
  rw [h, romByte_ends.1, romByte_ends.2]

theorem litState_holdsConversions : litState.HoldsConversions :=
  ⟨isConversion_red, fun _ => ⟨_, isConversion_red, rfl⟩⟩

theorem witness_StepKeepsTheCurveRange :
    litState.InCurveRange ∧ after (step litState) = some { litState with inputs := [] } := by
  refine ⟨⟨?_, ?_⟩, by decide⟩ <;> intro c <;> cases c <;>
    first | exact ⟨255, romByte_ends.2⟩ | exact ⟨0, romByte_ends.1⟩

theorem witness_StepKeepsConversionResults :
    litState.HoldsConversions ∧ after (step litState) = some { litState with inputs := [] } :=
  ⟨litState_holdsConversions, by decide⟩

/-- One step before the top of the count, so that the step reaches it. -/
theorem witness_StepKeepsTheTopDark :
    ({ litState with tickcnt := 254, inputs := [⟨false, true, false, 0⟩] } : State).DarkAtTop ∧
      (after (step { litState with tickcnt := 254, inputs := [⟨false, true, false, 0⟩] })).map
        (fun t => (t.tickcnt, t.out)) = some (255, .all false) :=
  ⟨fun h => absurd h (by decide), by decide⟩

theorem witness_LegalInputsNeverStopTheMachine : litState.inputsLegal = true ∧ litState.HoldsConversions :=
  ⟨by decide, litState_holdsConversions⟩

theorem witness_OnlyAnOutOfRangeHueStopsAStep :
    step (State.reset.withInputs [presents 0x16000000]) = .refused (.hueOutOfRange 1536) := by
  rfl

/-- A grey is not among what is presented: a saturation of 1; a saturation of 0 with the value 0; no `CONV` at all. -/
theorem witness_ModesAgreeOnRunsWithoutGreys :
    ∀ p ∈ (State.reset.withInputs [presents 0x100001FF, presents 0x10000000, presents 0x20000000]).inputs, ∀ w ∈ p.words,
      ∀ (hue : HueField) (sat val : Byte), decode w = .operation (.conv hue sat val) → sat ≠ 0 ∨ val = 0 := by
  intro p hp w hw hue sat val h
  have hmem : w = .cmd 0x100001FF ∨ w = .cmd 0x10000000 ∨ w = .cmd 0x20000000 := by
    simp only [State.withInputs, List.mem_cons, List.not_mem_nil, or_false] at hp
    rcases hp with rfl | rfl | rfl <;> simp [Sampling.words, presents] at hw <;> simp [hw]
  rcases hmem with rfl | rfl | rfl
  · have e : decode (.cmd 0x100001FF) = .operation (.conv 0 1 255) := by decide
    rw [e] at h; cases h; exact .inl (by decide)
  · have e : decode (.cmd 0x10000000) = .operation (.conv 0 0 0) := by decide
    rw [e] at h; cases h; exact .inr rfl
  · have e : decode (.cmd 0x20000000) = .operation .pub := by decide
    rw [e] at h; cases h

theorem witness_ConfigurationChangesLevelsOnly :
    after (runStepsUnder ⟨curveSq, .fallThrough⟩ 1 (State.reset.withInputs [presents 0x15FFC8FF])) =
      some { State.reset with res := ⟨255, 12, 12, 12⟩ } := by decide

theorem witness_AnimatorHueAfterIterations :
    Animator.scenario.inRange = true ∧ (⟨1535, 1535, 0, 0⟩ : Animator).inRange = true := by decide

theorem witness_AnimatorPublishesTheLastConversion : Animator.scenario.inRange = true ∧ 0 < 307 := by decide

end Sys2Proof.Tests
end

section
/-! PROOFS. What a machine step and a run under any configuration do, in terms of the port word taken (R71), and the
machine step of a word that decodes to an operation. -/

namespace Sys2Proof.Machine

theorem portStep_of_none {word : PortWord → State → Result} {s : State} (h : s.takeWord.1 = none) :
    portStep word s = .next s.takeWord.2 := by
  have htake : s.takeWord = (none, s.takeWord.2) := Prod.ext h rfl
  rw [portStep, htake]

theorem portStep_of_some {word : PortWord → State → Result} {s : State} {p : PortWord}
    (h : s.takeWord.1 = some p) : portStep word s = word p s.takeWord.2 := by
  have htake : s.takeWord = (some p, s.takeWord.2) := Prod.ext h rfl
  rw [portStep, htake]

/-- A sampling yields its first port word and then what is left of it (R71). -/
theorem words_eq_takeFirst (p : Sampling) :
    p.words = p.takeFirst.1.toList ++ p.takeFirst.2.flatMap Sampling.words := by
  obtain ⟨rst, tick, cmdValid, cmd⟩ := p
  cases rst <;> cases tick <;> cases cmdValid <;> rfl

/-- Taking an operation removes the oldest port word of the flattened samplings, and nothing else. -/
theorem inputs_words_eq_takeWord (s : State) :
    s.inputs.flatMap Sampling.words =
      s.takeWord.1.toList ++ s.takeWord.2.inputs.flatMap Sampling.words := by
  cases h : s.inputs with
  | nil => simp [h]
  | cons p rest => simp [takeWord_cons h, words_eq_takeFirst p]

theorem execWordUnder_operation (cfg : Config) {p : PortWord} {i : Instr} (h : decode p = .operation i) (s : State) :
    execWordUnder cfg p s = execUnder cfg i s := by
  simp [execWordUnder, wordStep, h]

theorem execWordUnder_rejected (cfg : Config) {p : PortWord} {why : Reject} (h : decode p = .rejected why)
    (s : State) : execWordUnder cfg p s = .next s := by
  simp [execWordUnder, wordStep, h, execRejected]

/-- No operation touches the samplings still to come. -/
theorem execUnder_next_inputs {cfg : Config} {i : Instr} {s t : State} (h : execUnder cfg i s = .next t) :
    t.inputs = s.inputs := by
  cases i with
  | conv hue sat val =>
    obtain ⟨q, -, rfl⟩ := execConvUnder_eq_next.mp h
    rfl
  | _ => cases h; rfl

theorem execWordUnder_next_inputs {cfg : Config} {p : PortWord} {s t : State}
    (h : execWordUnder cfg p s = .next t) : t.inputs = s.inputs := by
  cases hd : decode p with
  | operation i => exact execUnder_next_inputs (execWordUnder_operation cfg hd s ▸ h)
  | rejected why => rw [execWordUnder_rejected cfg hd] at h; cases h; rfl

/-- A machine step leaves the samplings that taking the operation left. -/
theorem stepUnder_next_inputs {cfg : Config} {s t : State} (h : stepUnder cfg s = .next t) :
    t.inputs = s.takeWord.2.inputs := by
  unfold stepUnder at h
  cases hw : s.takeWord.1 with
  | none => rw [portStep_of_none hw] at h; cases h; rfl
  | some p => exact execWordUnder_next_inputs (portStep_of_some hw ▸ h)

theorem andThen_eq_next {o : Result} {f : State → Result} {t : State} :
    Result.andThen o f = .next t ↔ ∃ u, o = .next u ∧ f u = .next t := by
  cases o <;> simp [Result.andThen]

/-- Two step functions that agree where an invariant holds, which the first one keeps, have the same runs from there. -/
theorem repeatStep_congr {one two : State → Result} {P : State → Prop} (agree : ∀ s, P s → one s = two s)
    (keep : ∀ s t, P s → one s = .next t → P t) (n : Nat) {s : State} (hs : P s) :
    repeatStep one n s = repeatStep two n s := by
  induction n generalizing s with
  | zero => rfl
  | succ n ih =>
    simp only [repeatStep, ← agree s hs]
    cases h : one s with
    | next t => exact ih (keep s t hs h)
    | fault r => rfl
    | refused r => rfl

/-- If every step of one step function is matched by a step of another, so is every run. -/
theorem repeatStep_simulation {one two : State → Result} {R : State → State → Prop}
    (match_step : ∀ s t u, R s u → one s = .next t → ∃ v, two u = .next v ∧ R t v) (n : Nat) {s t u : State}
    (hR : R s u) (h : repeatStep one n s = .next t) : ∃ v, repeatStep two n u = .next v ∧ R t v := by
  induction n generalizing s u with
  | zero => cases h; exact ⟨u, rfl, hR⟩
  | succ n ih =>
    obtain ⟨s', hs, hrun⟩ := andThen_eq_next.mp h
    obtain ⟨u', hu, hR'⟩ := match_step s s' u hR hs
    obtain ⟨v, hv, hRv⟩ := ih hR' hrun
    exact ⟨v, andThen_eq_next.mpr ⟨u', hu, hv⟩, hRv⟩

/-- Settles O8: the port word taken is `w`, and a word that decodes to an operation is run as that operation. -/
theorem stepRunsTheDecodedOperation : Obligations.StepRunsTheDecodedOperation := by
  intro s p rest w i hin hw hd
  have htake := takeWord_cons hin
  calc step s = execWord w s.takeWord.2 := portStep_of_some (by rw [htake, hw])
    _ = exec i s.takeWord.2 := execWord_operation hd _
    _ = exec i (s.withInputs (p.takeFirst.2 ++ rest)) := by rw [htake]

end Sys2Proof.Machine
end

section
/-! PROOFS. The two values of `MONO_MODE` give the same conversion unless the saturation is 0 and the value is not
(R98 to R100), and so the same runs. -/

namespace Sys2Proof.Machine

@[simp] theorem bot_zero (sat : Nat) : bot 0 sat = 0 := by simp [bot]

@[simp] theorem rmp_zero (fs : Nat) : rmp 0 fs = 0 := by simp [rmp]

/-- At value 0 every level is looked up at address 0, which holds 0 (R100, R27 b). -/
theorem dutyLevels_zero_value (curve : DimmingCurve) (hue : HueField) (sat : Byte) :
    dutyLevels curve hue sat 0 = ⟨0, 0, 0⟩ := by
  simpa [dutyLevels, addressLevels, indexLevels, Levels.map, romRead] using curve.first

theorem assign_same {α : Type} (row : PerChannel Role) (v : α) : assign row ⟨v, v, v⟩ = .all v := by
  apply PerChannel.ext_get
  intro c
  rw [assign_get, PerChannel.get_all]
  cases row.get c <;> rfl

/-- At value 0 the short-circuit result of R99 is the general one. -/
theorem convertRow_shortCircuit_zero_value (curve : DimmingCurve) (row : PerChannel Role) (hue : HueField)
    (sat : Byte) :
    convertRow ⟨curve, .shortCircuit⟩ row hue sat 0 = convertRow ⟨curve, .fallThrough⟩ row hue sat 0 := by
  simp only [convertRow, if_pos, dutyLevels_zero_value, assign_same]

/-- The modes differ only at saturation 0 with another value than 0. -/
theorem convert_shortCircuit (curve : DimmingCurve) (hue : HueField) {sat val : Byte} (h : sat ≠ 0 ∨ val = 0) :
    convert ⟨curve, .shortCircuit⟩ hue sat val = convert ⟨curve, .fallThrough⟩ hue sat val := by
  unfold convert
  cases roleRow (sextant hue) with
  | none => rfl
  | some row =>
    refine congrArg some ?_
    by_cases hv : val = 0
    · subst hv
      exact convertRow_shortCircuit_zero_value curve row hue sat
    · exact convertRow_shortCircuit curve row hue hv (h.resolve_right hv)

/-- A port word that presents no `CONV` with saturation 0 and another value than 0. -/
def NoGrey (w : PortWord) : Prop :=
  ∀ (hue : HueField) (sat val : Byte), decode w = .operation (.conv hue sat val) → sat ≠ 0 ∨ val = 0

/-- No port word still to come is a grey: the premise of the obligation, over the flattened samplings (R71). -/
def State.NoGreysAhead (s : State) : Prop := ∀ w ∈ s.inputs.flatMap Sampling.words, NoGrey w

theorem execWordUnder_modes (curve : DimmingCurve) {w : PortWord} (h : NoGrey w) (s : State) :
    execWordUnder ⟨curve, .shortCircuit⟩ w s = execWordUnder ⟨curve, .fallThrough⟩ w s := by
  cases hd : decode w with
  | rejected why => simp only [execWordUnder_rejected _ hd]
  | operation i =>
    simp only [execWordUnder_operation _ hd]
    cases i with
    | conv hue sat val => exact execConvUnder_congr (convert_shortCircuit curve hue (h hue sat val hd)) s
    | _ => rfl

theorem stepUnder_modes (curve : DimmingCurve) {s : State} (h : s.NoGreysAhead) :
    stepUnder ⟨curve, .shortCircuit⟩ s = stepUnder ⟨curve, .fallThrough⟩ s := by
  unfold stepUnder
  cases hw : s.takeWord.1 with
  | none => simp only [portStep_of_none hw]
  | some w =>
    simp only [portStep_of_some hw]
    exact execWordUnder_modes curve (h w (by simp [inputs_words_eq_takeWord s, hw])) _

/-- What is ahead after a step was ahead before it. -/
theorem stepUnder_keeps_noGreysAhead {cfg : Config} {s t : State} (hs : s.NoGreysAhead)
    (h : stepUnder cfg s = .next t) : t.NoGreysAhead := by
  intro w hw
  rw [stepUnder_next_inputs h] at hw
  exact hs w (inputs_words_eq_takeWord s ▸ List.mem_append_right _ hw)

/-- Settles O55: without greys ahead the steps of the two modes agree, and no step brings a grey. -/
theorem modesAgreeOnRunsWithoutGreys : Obligations.ModesAgreeOnRunsWithoutGreys := by
  intro curve n s hs
  have ahead : s.NoGreysAhead := by
    intro w hw
    obtain ⟨p, hp, hwp⟩ := List.mem_flatMap.mp hw
    exact hs p hp w hwp
  exact repeatStep_congr (fun _ => stepUnder_modes curve) (fun _ _ => stepUnder_keeps_noGreysAhead) n ahead

end Sys2Proof.Machine
end

section
/-! PROOFS. Two machines under different configurations run in lockstep: whether a step stops, what it does to the
counter and which samplings it leaves depend on no configuration (R54, R108). -/

namespace Sys2Proof.Machine

/-- Two states with the same counter and the same samplings still to come. -/
def SameCount (s u : State) : Prop := u.tickcnt = s.tickcnt ∧ u.inputs = s.inputs

/-- A conversion exists under one configuration iff under another (R108). -/
theorem convert_exists_under_other {a : Config} (b : Config) {hue : HueField} {sat val : Byte} {q : PerChannel Byte}
    (h : convert a hue sat val = some q) : ∃ q', convert b hue sat val = some q' := by
  rw [← Option.isSome_iff_exists, convert_isSome b, ← convert_isSome a, h]
  rfl

theorem execUnder_sameCount {a : Config} (b : Config) {i : Instr} {s t u : State} (hR : SameCount s u)
    (h : execUnder a i s = .next t) : ∃ v, execUnder b i u = .next v ∧ SameCount t v := by
  obtain ⟨hcount, hin⟩ := hR
  cases i with
  | conv hue sat val =>
    obtain ⟨q, hq, rfl⟩ := execConvUnder_eq_next.mp h
    obtain ⟨q', hq'⟩ := convert_exists_under_other b hq
    exact ⟨u.withRes q', execConvUnder_eq_next.mpr ⟨q', hq', rfl⟩, hcount, hin⟩
  | tick => cases h; exact ⟨_, rfl, congrArg nextCount hcount, hin⟩
  | reset => cases h; exact ⟨_, rfl, rfl, hin⟩
  | _ => cases h; exact ⟨_, rfl, hcount, hin⟩

theorem execWordUnder_sameCount {a : Config} (b : Config) {w : PortWord} {s t u : State} (hR : SameCount s u)
    (h : execWordUnder a w s = .next t) : ∃ v, execWordUnder b w u = .next v ∧ SameCount t v := by
  cases hd : decode w with
  | operation i =>
    rw [execWordUnder_operation a hd] at h
    rw [execWordUnder_operation b hd]
    exact execUnder_sameCount b hR h
  | rejected why =>
    rw [execWordUnder_rejected a hd] at h
    cases h
    exact ⟨u, execWordUnder_rejected b hd u, hR⟩

/-- Both states take the same port word. -/
theorem SameCount.takeWord {s u : State} (hR : SameCount s u) :
    u.takeWord.1 = s.takeWord.1 ∧ SameCount s.takeWord.2 u.takeWord.2 := by
  obtain ⟨hcount, hin⟩ := hR
  cases h : s.inputs with
  | nil => simp [takeWord_nil, hin, h, SameCount, hcount]
  | cons p rest => simp [takeWord_cons h, takeWord_cons (hin.trans h), SameCount, hcount]

theorem stepUnder_sameCount {a : Config} (b : Config) {s t u : State} (hR : SameCount s u)
    (h : stepUnder a s = .next t) : ∃ v, stepUnder b u = .next v ∧ SameCount t v := by
  obtain ⟨hword, hrest⟩ := hR.takeWord
  unfold stepUnder at h ⊢
  cases hw : s.takeWord.1 with
  | none =>
    rw [portStep_of_none hw] at h
    cases h
    exact ⟨_, portStep_of_none (hword.trans hw), hrest⟩
  | some w =>
    rw [portStep_of_some hw] at h
    rw [portStep_of_some (hword.trans hw)]
    exact execWordUnder_sameCount b hrest h

/-- Settles O57: a run under `a` is matched, step by step, by a run under `b` with the same counter and samplings. -/
theorem configurationChangesLevelsOnly : Obligations.ConfigurationChangesLevelsOnly := fun _ b n _ _ h =>
  repeatStep_simulation (R := SameCount) (fun _ _ _ => stepUnder_sameCount b) n ⟨rfl, rfl⟩ h

end Sys2Proof.Machine
end

section
/-! PROOFS. One machine step takes an operation and runs it, so a property of the registers that every operation keeps
is kept by every step (R71); and so along a run of operations. The two invariants of `RES` and `DUTY` (R24, R118, R181)
are such properties, of one shape. -/

namespace Sys2Proof.Machine

/-- Taking an operation only shortens the samplings still to come. -/
theorem takeWord_snd (s : State) : s.takeWord.2 = s.withInputs s.takeWord.2.inputs := by
  cases h : s.inputs with
  | nil => simp [takeWord_nil s h, State.withInputs]
  | cons p rest => simp [takeWord_cons h]

/-- A property that does not look at the samplings and that every operation keeps is kept by every machine step. -/
theorem step_keeps {P : State → Prop} (take : ∀ s q, P s → P (s.withInputs q))
    (keep : ∀ i s t, P s → exec i s = .next t → P t) {s t : State} (hs : P s) (h : step s = .next t) : P t := by
  have htaken : P s.takeWord.2 := takeWord_snd s ▸ take s _ hs
  rcases step_next_cases h with rfl | ⟨p, hp⟩
  · exact htaken
  · rcases execWord_next_cases hp with ⟨i, -, hi⟩ | ⟨why, -, rfl⟩
    · exact keep i _ t htaken hi
    · exact htaken

/-- If each operation of a list runs from every state with a property and keeps it, so does the whole list. -/
theorem execAll_runs_keeping {P : State → Prop} {ops : List Instr}
    (run : ∀ i ∈ ops, ∀ s, P s → ∃ t, exec i s = .next t ∧ P t) {s : State} (hs : P s) :
    ∃ t, execAll ops s = .next t ∧ P t := by
  induction ops generalizing s with
  | nil => exact ⟨s, rfl, hs⟩
  | cons i rest ih =>
    obtain ⟨u, hu, hPu⟩ := run i List.mem_cons_self s hs
    obtain ⟨t, ht, hPt⟩ := ih (fun j hj => run j (List.mem_cons_of_mem i hj)) hPu
    exact ⟨t, andThen_eq_next.mpr ⟨u, hu, ht⟩, hPt⟩

/-! The shape of the two invariants. -/

/-- `RES` has a property of results, and each byte of `DUTY` is that channel of SOME result with it: what publishing
makes of any property of results. -/
def State.HoldsResults (P : PerChannel Byte → Prop) (s : State) : Prop :=
  P s.res ∧ ∀ c : Channel, ∃ q : PerChannel Byte, P q ∧ s.duty.get c = q.get c

/-- All bytes of a result are in the image of the curve. -/
def AllInCurve (q : PerChannel Byte) : Prop := ∀ c : Channel, InCurve (q.get c)

theorem holdsConversions_iff (s : State) : s.HoldsConversions ↔ s.HoldsResults IsConversion := Iff.rfl

/-- The range invariant of R24 has the shape too: a byte in the image is a channel of the result that has it in all
four. -/
theorem inCurveRange_iff (s : State) : s.InCurveRange ↔ s.HoldsResults AllInCurve := by
  have byte (c : Channel) : InCurve (s.duty.get c) ↔ ∃ q, AllInCurve q ∧ s.duty.get c = q.get c := by
    constructor
    · intro h
      exact ⟨.all (s.duty.get c), fun d => by rwa [PerChannel.get_all], (PerChannel.get_all _ c).symm⟩
    · rintro ⟨q, hq, hc⟩
      exact hc ▸ hq c
  exact and_congr_right' (forall_congr' byte)

/-- Zeros are a conversion: that of value 0 (R100). -/
theorem isConversion_zeros : IsConversion (.all 0) := by
  obtain ⟨row, hrow⟩ := roleRow_of_hue 0 (by decide)
  refine ⟨0, 0, 0, ?_⟩
  rw [convert_machine 0 0 0 hrow, dutyLevels_zero_value, assign_same]

/-- Every byte of a conversion was read in the ROM (R106). -/
theorem IsConversion.allInCurve {q : PerChannel Byte} (h : IsConversion q) : AllInCurve q := by
  obtain ⟨hue, sat, val, hq⟩ := h
  have hue_le : hue.toNat ≤ 1535 := by
    have := convert_isSome machineConfig hue sat val
    simpa [hq] using this
  obtain ⟨row, hrow⟩ := roleRow_of_hue hue hue_le
  obtain rfl := Option.some.inj ((convert_machine hue sat val hrow).symm.trans hq)
  intro c
  rw [assign_get]
  cases row.get c <;> exact ⟨_, rfl⟩

theorem holdsResults_of_zeros {P : PerChannel Byte → Prop} (zeros : P (.all 0)) {s : State} (hres : s.res = .all 0)
    (hduty : s.duty = .all 0) : s.HoldsResults P :=
  ⟨hres ▸ zeros, fun _ => ⟨.all 0, zeros, by rw [hduty]⟩⟩

/-- `PUB`, `PUBC` and `RESET` write bytes of results, so a property that every conversion has is kept. -/
theorem exec_keeps_holdsResults {P : PerChannel Byte → Prop} (conv : ∀ q, IsConversion q → P q) (i : Instr)
    (s t : State) (hs : s.HoldsResults P) (h : exec i s = .next t) : t.HoldsResults P := by
  obtain ⟨hres, hduty⟩ := hs
  rcases exec_next_cases h with ⟨-, rfl⟩ | ⟨hue, sat, val, q, -, hq, rfl⟩ | ⟨-, rfl⟩ | ⟨ch, -, rfl⟩ | ⟨-, rfl⟩ | ⟨-, rfl⟩
  · exact ⟨hres, hduty⟩
  · exact ⟨conv q ⟨hue, sat, val, hq⟩, hduty⟩
  · exact ⟨hres, fun c => ⟨s.res, hres, rfl⟩⟩
  · refine ⟨hres, fun c => ?_⟩
    by_cases hc : c = ch
    · subst hc
      exact ⟨s.res, hres, PerChannel.get_set_same ..⟩
    · rw [State.withDuty_duty, PerChannel.get_set_other _ _ hc]
      exact hduty c
  · exact ⟨hres, hduty⟩
  · exact holdsResults_of_zeros (conv _ isConversion_zeros) rfl rfl

theorem step_keeps_holdsResults {P : PerChannel Byte → Prop} (conv : ∀ q, IsConversion q → P q) {s t : State}
    (hs : s.HoldsResults P) (h : step s = .next t) : t.HoldsResults P :=
  step_keeps (P := State.HoldsResults P) (fun _ _ => id) (exec_keeps_holdsResults conv) hs h

/-- Settles O49: every conversion's bytes are in the image of the curve, so steps keep `HoldsResults AllInCurve`. -/
theorem stepKeepsTheCurveRange : Obligations.StepKeepsTheCurveRange := by
  intro s t hs h
  rw [inCurveRange_iff] at hs ⊢
  exact step_keeps_holdsResults (fun _ => IsConversion.allInCurve) hs h

/-- Settles O50: the invariant is `HoldsResults` of being a conversion itself. -/
theorem stepKeepsConversionResults : Obligations.StepKeepsConversionResults := by
  intro s t hs h
  rw [holdsConversions_iff] at hs ⊢
  exact step_keeps_holdsResults (fun _ => id) hs h

/-- Settles O52: zeros are a conversion, whose bytes are in the image; and the outputs after reset are low. -/
theorem resetMeetsTheInvariants : Obligations.ResetMeetsTheInvariants :=
  ⟨(inCurveRange_iff _).mpr (holdsResults_of_zeros isConversion_zeros.allInCurve rfl rfl),
    (holdsConversions_iff _).mpr (holdsResults_of_zeros isConversion_zeros rfl rfl), fun _ => rfl⟩

end Sys2Proof.Machine
end

section
/-! PROOFS. What `RESET` leaves (R36, R175), and that publishing and ticking keep it dark until a conversion (R114). -/

namespace Sys2Proof.Machine

/-- Settles O27: the registers `RESET` clears are all of them, so clearing again changes nothing; and a sampling with
`rst = 1` yields `RESET` alone. -/
theorem resetLeavesTheResetValues : Obligations.ResetLeavesTheResetValues := by
  refine ⟨fun s => ⟨s.clearRegisters, rfl, fun c => ?_, rfl, rfl⟩, fun tick cmdValid cmd => rfl, fun c => ?_, rfl⟩
  · simp
  · cases c <;> exact ⟨rfl, rfl, rfl⟩

/-- The lamp is dark and a publication would leave it so: the registers of R36 but for the counter. -/
def State.Dark (s : State) : Prop := s.res = .all 0 ∧ s.duty = .all 0 ∧ s.out = .all false

/-- No duty of 0 is above the counter (R126). -/
theorem comparators_zeros (count : Byte) : comparators (.all 0) count = .all false := by
  apply PerChannel.ext_get
  intro c
  simp [comparators, dutyExceeds]

@[simp] theorem PerChannel.set_all {α : Type} (v : α) (c : Channel) : (PerChannel.all v).set c v = .all v := by
  cases c <;> rfl

/-- The operations that neither convert nor reset run from a dark state and keep it dark. -/
theorem exec_keeps_dark {i : Instr} (hi : i = .nop ∨ i = .tick ∨ i = .pub ∨ ∃ ch, i = .pubc ch) {s : State}
    (hs : s.Dark) : ∃ t, exec i s = .next t ∧ t.Dark := by
  obtain ⟨hres, hduty, hout⟩ := hs
  rcases hi with rfl | rfl | rfl | ⟨ch, rfl⟩
  · exact ⟨s, rfl, hres, hduty, hout⟩
  · exact ⟨s.ticked, rfl, hres, hduty, by rw [State.ticked_out, hduty, comparators_zeros]⟩
  · exact ⟨s.withDuty s.res, rfl, hres, hres, hout⟩
  · exact ⟨s.withDuty (s.duty.set ch (s.res.get ch)), rfl, hres, by simp [hres, hduty], hout⟩

/-- Settles O17: `RESET` leaves a dark state, which every operation of the list keeps. -/
theorem publishBeforeConvertIsDark : Obligations.PublishBeforeConvertIsDark := by
  intro ops s hops
  have dark : s.clearRegisters.Dark := ⟨rfl, rfl, rfl⟩
  exact execAll_runs_keeping (P := State.Dark) (fun i hi _ => exec_keeps_dark (hops i hi)) dark

end Sys2Proof.Machine
end

section
/-! PROOFS. The ports: the sampling that presents one port word (assumption logs 1 and 12), and the output ports as
wires from the registers (R28). -/

namespace Sys2Proof.Machine

/-- A strobe selects its operation at level 1 only (R69). -/
theorem tick_level_of_decode {level : BitVec 1} {i : Instr} (h : decode (.tick level) = .operation i) : level = 1 := by
  by_contra hl
  rw [decode, if_neg hl] at h
  cases h

/-- The same for the port `rst` (R70). -/
theorem rst_level_of_decode {level : BitVec 1} {i : Instr} (h : decode (.rst level) = .operation i) : level = 1 := by
  by_contra hl
  rw [decode, if_neg hl] at h
  cases h

/-- A port word that decodes to an operation is all that its presenting sampling yields. -/
theorem presenting_takeFirst {p : PortWord} {i : Instr} (h : decode p = .operation i) :
    (Sampling.presenting p).takeFirst = (some p, []) := by
  cases p with
  | cmd w => rfl
  | tick level => obtain rfl := tick_level_of_decode h; rfl
  | rst level => obtain rfl := rst_level_of_decode h; rfl

theorem decodeTableWord_eq_some {nbits w : Nat} {i : Instr} :
    decodeTableWord nbits w = some i ↔ decode (portWordOfTable nbits w) = .operation i := by
  unfold decodeTableWord
  cases decode (portWordOfTable nbits w) <;> simp

/-- Settles O12: the word stands alone in the oldest sampling, so the step takes it and leaves the samplings there
were. -/
theorem tableWordIsTheNextOperation : Obligations.TableWordIsTheNextOperation := by
  intro s nbits w i h
  have hdec := decodeTableWord_eq_some.mp h
  have htake := presenting_takeFirst hdec
  rw [stepRunsTheDecodedOperation (s.withFetchWord nbits w) _ s.inputs _ i rfl (congrArg Prod.fst htake) hdec, htake]
  rfl

/-- Appended bit vectors are digits of a number. -/
theorem toNat_append_eq {m n : Nat} (x : BitVec m) (y : BitVec n) :
    (x ++ y).toNat = x.toNat * 2 ^ n + y.toNat := by
  rw [BitVec.toNat_append, ← Nat.shiftLeft_add_eq_or_of_lt y.isLt, Nat.shiftLeft_eq]

/-- A register file as one word, in numbers (R42). -/
theorem PerChannel.word_toNat (q : PerChannel Byte) :
    q.word.toNat = q.r.toNat * 2 ^ 24 + q.g.toNat * 2 ^ 16 + q.b.toNat * 2 ^ 8 + q.w.toNat := by
  simp only [PerChannel.word, toNat_append_eq]
  omega

theorem outBits_getLsbD (r g b w : Bool) (c : Channel) :
    (BitVec.ofBool w ++ BitVec.ofBool b ++ BitVec.ofBool g ++ BitVec.ofBool r : BitVec 4).getLsbD c.number.toNat =
      PerChannel.get ⟨r, g, b, w⟩ c := by
  cases c <;> (revert r g b w; decide)

/-- Bit `n` of the port `out` is the output register of channel number `n` (R28, R63). -/
theorem State.outPort_getLsbD (s : State) (c : Channel) : s.outPort.getLsbD c.number.toNat = s.out.get c :=
  outBits_getLsbD s.out.r s.out.g s.out.b s.out.w c

/-- Settles O13: each port bit by its channel's number, and the four bytes as digits. -/
theorem outputPortsAreWiresFromState : Obligations.OutputPortsAreWiresFromState := fun s =>
  ⟨⟨s.outPort_getLsbD .r, s.outPort_getLsbD .g, s.outPort_getLsbD .b, s.outPort_getLsbD .w⟩, s.res.word_toNat⟩

end Sys2Proof.Machine
end

section
/-! PROOFS. The ROM as a conversion sees it: only the bytes at the addresses it reads matter (R44). -/

namespace Sys2Proof.Machine

theorem Levels.map_congr {α β : Type} {f g : α → β} {l : Levels α} (top : f l.top = g l.top)
    (ramp : f l.ramp = g l.ramp) (bottom : f l.bottom = g l.bottom) : l.map f = l.map g := by
  simp only [Levels.map, top, ramp, bottom]

/-- Curves that agree at the three level addresses give the same levels. -/
theorem dutyLevels_congr {a b : DimmingCurve} {hue : HueField} {sat val : Byte}
    (h : ∀ x ∈ levelAddresses hue sat val, a.table x = b.table x) :
    dutyLevels a hue sat val = dutyLevels b hue sat val :=
  Levels.map_congr (h _ (by simp [levelAddresses])) (h _ (by simp [levelAddresses])) (h _ (by simp [levelAddresses]))

/-- In R99's special cases no address is read. -/
theorem romAddresses_shortCircuit_special (hue : HueField) {sat val : Byte} (h : val = 0 ∨ sat = 0) :
    romAddresses .shortCircuit hue sat val = [] := if_pos h

/-- Elsewhere the three level addresses are. -/
theorem romAddresses_shortCircuit_general (hue : HueField) {sat val : Byte} (h : ¬(val = 0 ∨ sat = 0)) :
    romAddresses .shortCircuit hue sat val = levelAddresses hue sat val := if_neg h

/-- A short-circuit result is the same whatever the curve holds (R99). -/
theorem convertRow_shortCircuit_special (a b : DimmingCurve) (row : PerChannel Role) (hue : HueField) {sat val : Byte}
    (h : val = 0 ∨ sat = 0) :
    convertRow ⟨a, .shortCircuit⟩ row hue sat val = convertRow ⟨b, .shortCircuit⟩ row hue sat val := by
  by_cases hv : val = 0
  · simp only [convertRow, if_pos hv]
  · simp only [convertRow, if_neg hv, if_pos (h.resolve_left hv)]

/-- Curves that agree at the addresses read give the same result, for any row of the channel table. -/
theorem convertRow_congr {a b : DimmingCurve} {mode : MonoMode} (row : PerChannel Role) {hue : HueField} {sat val : Byte}
    (h : ∀ x ∈ romAddresses mode hue sat val, a.table x = b.table x) :
    convertRow ⟨a, mode⟩ row hue sat val = convertRow ⟨b, mode⟩ row hue sat val := by
  have general (hl : ∀ x ∈ levelAddresses hue sat val, a.table x = b.table x) :
      convertRow ⟨a, .fallThrough⟩ row hue sat val = convertRow ⟨b, .fallThrough⟩ row hue sat val :=
    congrArg (assign row) (dutyLevels_congr hl)
  cases mode with
  | fallThrough => exact general h
  | shortCircuit =>
    by_cases special : val = 0 ∨ sat = 0
    · exact convertRow_shortCircuit_special a b row hue special
    · rw [romAddresses_shortCircuit_general hue special] at h
      obtain ⟨hv, hs⟩ := not_or.mp special
      rw [convertRow_shortCircuit a row hue hv hs, convertRow_shortCircuit b row hue hv hs, general h]

/-- Settles O33: the row of the channel table depends on the hue alone, and the result for a row on the bytes read. -/
theorem convReadsTheRomAtItsAddresses : Obligations.ConvReadsTheRomAtItsAddresses := by
  intro a b mode hue sat val h
  refine ⟨?_, rfl, romAddresses_shortCircuit_special hue⟩
  cases hrow : roleRow (sextant hue) with
  | none => simp only [convert, hrow]
  | some row => rw [convert_of_row _ _ _ _ hrow, convert_of_row _ _ _ _ hrow, convertRow_congr row h]

end Sys2Proof.Machine
end

section
/-! PROOFS. Who writes which register (R54, R164), and what a tick sees of `DUTY` before, during and after a publication
(R48, R49, R181). -/

namespace Sys2Proof.Machine

/-- Settles O44: each operation writes its own registers, and `PUBC` only the one of its channel. -/
theorem registersChangeOnlyByTheirOwners : Obligations.RegistersChangeOnlyByTheirOwners := by
  intro i s t h
  rcases exec_next_cases h with
    ⟨-, rfl⟩ | ⟨hue, sat, val, q, rfl, -, rfl⟩ | ⟨rfl, rfl⟩ | ⟨ch, rfl, rfl⟩ | ⟨rfl, rfl⟩ | ⟨rfl, rfl⟩
  · exact ⟨absurd rfl, fun _ => absurd rfl, absurd rfl, absurd rfl, rfl⟩
  · exact ⟨fun _ => .inl ⟨hue, sat, val, rfl⟩, fun _ => absurd rfl, absurd rfl, absurd rfl, rfl⟩
  · exact ⟨absurd rfl, fun _ _ => .inl rfl, absurd rfl, absurd rfl, rfl⟩
  · refine ⟨absurd rfl, fun c hc => ?_, absurd rfl, absurd rfl, rfl⟩
    have own : c = ch := by
      by_contra other
      exact hc (PerChannel.get_set_other _ _ other)
    exact .inr (.inl (own ▸ rfl))
  · exact ⟨absurd rfl, fun _ => absurd rfl, fun _ => .inl rfl, fun _ => .inl rfl, rfl⟩
  · exact ⟨fun _ => .inr rfl, fun _ _ => .inr (.inr rfl), fun _ => .inr rfl, fun _ => .inr rfl, rfl⟩

/-- A property that each operation of a list keeps, where it runs, is kept by the whole list, where it runs. -/
theorem execAll_keeps {P : State → Prop} {ops : List Instr}
    (keep : ∀ i ∈ ops, ∀ s t, P s → exec i s = .next t → P t) {s t : State} (hs : P s)
    (h : execAll ops s = .next t) : P t := by
  induction ops generalizing s with
  | nil => cases h; exact hs
  | cons i rest ih =>
    obtain ⟨u, hu, hrest⟩ := andThen_eq_next.mp h
    exact ih (fun j hj => keep j (List.mem_cons_of_mem i hj)) (keep i List.mem_cons_self s u hs hu) hrest

/-- A tick compares each channel's duty, as it stands, with the counter that the tick leaves (R122, R124). -/
theorem State.ticked_out_get (s : State) (c : Channel) :
    s.ticked.out.get c = dutyExceeds (s.duty.get c) s.ticked.tickcnt :=
  PerChannel.get_map ..

/-- Settles O45: no operation of the list owns the channel's duty, so each keeps it. -/
theorem tickReadsTheLatestPublishedByte : Obligations.TickReadsTheLatestPublishedByte := by
  intro c ops s t hops h
  have same : t.duty.get c = s.duty.get c := by
    refine execAll_keeps (P := fun u => u.duty.get c = s.duty.get c) (fun i hi u v hu hv => ?_) rfl h
    obtain ⟨hpub, hpubc, hreset⟩ := hops i hi
    obtain ⟨-, owners, -⟩ := registersChangeOnlyByTheirOwners i u v hv
    by_contra changed
    rcases owners c (fun hvu => changed (hvu.trans hu)) with rfl | rfl | rfl
    · exact hpub rfl
    · exact hpubc rfl
    · exact hreset rfl
  exact ⟨same, t.ticked, rfl, by rw [State.ticked_out_get, same, dutyExceeds_iff]⟩

/-! Publications among ticks: `RES` stays, so every publication of a channel writes one and the same byte. -/

/-- An operation of a publication, in either style, or a tick that falls into it. -/
def PublishesOrTicks (i : Instr) : Prop := i = .tick ∨ i = .pub ∨ ∃ ch, i = .pubc ch

/-- The byte of a channel after such operations: the result byte if one of them published it, else the old one. -/
def byteAfter (ops : List Instr) (s : State) (c : Channel) : Byte :=
  if .pub ∈ ops ∨ .pubc c ∈ ops then s.res.get c else s.duty.get c

theorem exec_publishesOrTicks {i : Instr} (hi : PublishesOrTicks i) (s : State) :
    ∃ t, exec i s = .next t ∧ t.res = s.res ∧ ∀ c, t.duty.get c = byteAfter [i] s c := by
  rcases hi with rfl | rfl | ⟨ch, rfl⟩
  · exact ⟨s.ticked, rfl, rfl, fun c => by simp [byteAfter]⟩
  · exact ⟨s.withDuty s.res, rfl, rfl, fun c => by simp [byteAfter]⟩
  · refine ⟨s.withDuty (s.duty.set ch (s.res.get ch)), rfl, rfl, fun c => ?_⟩
    by_cases hc : c = ch
    · subst hc
      simp [byteAfter]
    · simp [byteAfter, hc, PerChannel.get_set_other]

/-- What the first operation published is published over by the rest, or stays. -/
theorem byteAfter_cons {i : Instr} {rest : List Instr} {s u : State} (hres : u.res = s.res)
    (hduty : ∀ c, u.duty.get c = byteAfter [i] s c) (c : Channel) : byteAfter rest u c = byteAfter (i :: rest) s c := by
  by_cases later : .pub ∈ rest ∨ .pubc c ∈ rest
  · have whole : .pub ∈ i :: rest ∨ .pubc c ∈ i :: rest := later.imp (List.mem_cons_of_mem i) (List.mem_cons_of_mem i)
    rw [byteAfter, byteAfter, if_pos later, if_pos whole, hres]
  · obtain ⟨hpub, hpubc⟩ := not_or.mp later
    rw [byteAfter, if_neg later, hduty]
    simp [byteAfter, hpub, hpubc]

theorem execAll_publishesOrTicks {ops : List Instr} (hops : ∀ i ∈ ops, PublishesOrTicks i) (s : State) :
    ∃ t, execAll ops s = .next t ∧ ∀ c, t.duty.get c = byteAfter ops s c := by
  induction ops generalizing s with
  | nil => exact ⟨s, rfl, fun c => by simp [byteAfter]⟩
  | cons i rest ih =>
    obtain ⟨u, hu, hres, hduty⟩ := exec_publishesOrTicks (hops i List.mem_cons_self) s
    obtain ⟨t, ht, hbytes⟩ := ih (fun j hj => hops j (List.mem_cons_of_mem i hj)) u
    exact ⟨t, andThen_eq_next.mpr ⟨u, hu, ht⟩, fun c => (hbytes c).trans (byteAfter_cons hres hduty c)⟩

/-- What a tick at the end of such operations shows. -/
theorem execAll_publishesOrTicks_tick {ops : List Instr} (hops : ∀ i ∈ ops, PublishesOrTicks i) (s : State) :
    ∃ t, execAll (ops ++ [.tick]) s = .next t ∧ ∀ c, t.out.get c = dutyExceeds (byteAfter ops s c) t.tickcnt := by
  obtain ⟨t, ht, hbytes⟩ := execAll_publishesOrTicks hops s
  refine ⟨t.ticked, ?_, fun c => by rw [State.ticked_out_get, hbytes]⟩
  rw [execAll_append, ht]
  rfl

/-- Settles O46: without a `PUB` a channel's byte is published by its own `PUBC` alone. -/
theorem tornReadShowsOldOrNewBytes : Obligations.TornReadShowsOldOrNewBytes := by
  intro ops s hops
  have noPub : .pub ∉ ops := fun h => by simpa using hops _ h
  obtain ⟨t, ht, hout⟩ := execAll_publishesOrTicks_tick (fun i hi => (hops i hi).imp_right .inr) s
  exact ⟨t, ht, fun c => by simpa only [byteAfter, noPub, false_or] using hout c⟩

/-- Settles O47: without a `PUBC` the bytes of all channels are published together. -/
theorem atomicPublicationIsNeverTorn : Obligations.AtomicPublicationIsNeverTorn := by
  intro ops s hops
  have noPubc (c : Channel) : .pubc c ∉ ops := fun h => by simpa using hops _ h
  obtain ⟨t, ht, hout⟩ := execAll_publishesOrTicks_tick (fun i hi => (hops i hi).imp_right .inl) s
  refine ⟨t, ht, PerChannel.ext_get fun c => ?_⟩
  rw [hout, byteAfter, comparators, PerChannel.get_map]
  simp only [noPubc, or_false]
  split <;> rfl

end Sys2Proof.Machine
end

section
/-! PROOFS. Decoder and encoder agree (R61 to R65, R69, R70). Both are said in numbers: what presents an operation is
one number, and the four command rows are quotients of the word by a power of 2. -/

namespace Sys2Proof.Machine

/-- A field of a command word as a number. -/
theorem field_toNat (w : Word32) (start len : Nat) :
    (w.extractLsb' start len).toNat = w.toNat / 2 ^ start % 2 ^ len := by
  simp [BitVec.extractLsb'_toNat, Nat.shiftRight_eq_div_pow]

/-- Two bits name a channel by its number (R63), and every channel is named. -/
@[simp] theorem number_ofNumber (n : BitVec 2) : (Channel.ofNumber n).number = n := by
  revert n; decide

@[simp] theorem ofNumber_number (ch : Channel) : Channel.ofNumber ch.number = ch := by
  cases ch <;> rfl

/-! What presents an operation, as a number. -/

theorem encode_nop_eq_cmd_iff (w : Word32) : encode .nop = .cmd w ↔ w.toNat = 0 := by
  rw [encode, PortWord.cmd.injEq, ← BitVec.toNat_inj]
  exact eq_comm

theorem encode_conv_eq_cmd_iff (w : Word32) (hue : HueField) (sat val : Byte) :
    encode (.conv hue sat val) = .cmd w ↔
      w.toNat = 2 ^ 28 + hue.toNat * 2 ^ 16 + sat.toNat * 2 ^ 8 + val.toNat := by
  rw [encode, PortWord.cmd.injEq, ← BitVec.toNat_inj]
  simp only [toNat_append_eq, BitVec.toNat_ofNat]
  omega

theorem encode_pub_eq_cmd_iff (w : Word32) : encode .pub = .cmd w ↔ w.toNat = 2 * 2 ^ 28 := by
  rw [encode, PortWord.cmd.injEq, ← BitVec.toNat_inj]
  exact eq_comm

theorem encode_pubc_eq_cmd_iff (w : Word32) (ch : Channel) :
    encode (.pubc ch) = .cmd w ↔ w.toNat = 3 * 2 ^ 28 + ch.number.toNat := by
  rw [encode, PortWord.cmd.injEq, ← BitVec.toNat_inj]
  simp only [toNat_append_eq, BitVec.toNat_ofNat]
  omega

/-! The two rows with operand fields. -/

theorem decodeCommand_of_convRow {w : Word32} (h : w.toNat / 2 ^ 27 = 2) :
    decodeCommand w = .operation (.conv (w.extractLsb' 16 11) (w.extractLsb' 8 8) (w.extractLsb' 0 8)) := by
  have op : opField w = 1 := (opField_eq_iff w 1 (by omega)).mpr (by omega)
  have reserved : w.extractLsb' 27 1 = 0 := (field_eq_zero_iff w 27 1).mpr (by omega)
  simp [decodeCommand, decodeFormatC, op, reserved]

theorem decodeCommand_of_pubcRow {w : Word32} (h : w.toNat / 2 ^ 2 = 3 * 2 ^ 26) :
    decodeCommand w = .operation (.pubc (Channel.ofNumber (w.extractLsb' 0 2))) := by
  have op : opField w = 3 := (opField_eq_iff w 3 (by omega)).mpr (by omega)
  have reserved : w.extractLsb' 2 26 = 0 := (field_eq_zero_iff w 2 26).mpr (by omega)
  simp [decodeCommand, decodeFormatP, op, reserved]

/-! Decoding what presents an operation, and presenting what was decoded. -/

theorem decode_encode_conv (hue : HueField) (sat val : Byte) :
    decode (encode (.conv hue sat val)) = .operation (.conv hue sat val) := by
  obtain ⟨w, hw⟩ : ∃ w, encode (.conv hue sat val) = .cmd w := ⟨_, rfl⟩
  have number := (encode_conv_eq_cmd_iff w hue sat val).mp hw
  have fields : w.extractLsb' 16 11 = hue ∧ w.extractLsb' 8 8 = sat ∧ w.extractLsb' 0 8 = val := by
    simp only [← BitVec.toNat_inj, field_toNat]
    omega
  obtain ⟨hhue, hsat, hval⟩ := fields
  rw [hw, decode, decodeCommand_of_convRow (by omega), hhue, hsat, hval]

theorem decode_encode_pubc (ch : Channel) : decode (encode (.pubc ch)) = .operation (.pubc ch) := by
  obtain ⟨w, hw⟩ : ∃ w, encode (.pubc ch) = .cmd w := ⟨_, rfl⟩
  have number := (encode_pubc_eq_cmd_iff w ch).mp hw
  have field : w.extractLsb' 0 2 = ch.number := by
    rw [← BitVec.toNat_inj, field_toNat]
    omega
  rw [hw, decode, decodeCommand_of_pubcRow (by omega), field, ofNumber_number]

/-- Settles O1: the rows with fields by their numbers, the other four by evaluation. -/
theorem decodeOfEncodeIsTheOperation : Obligations.DecodeOfEncodeIsTheOperation := by
  intro i
  cases i with
  | conv hue sat val => exact decode_encode_conv hue sat val
  | pubc ch => exact decode_encode_pubc ch
  | _ => decide

/-- The five rejections drop out; in the four operations the fields and the fixed bits make up the whole word. -/
theorem encode_of_decodeCommand {w : Word32} {i : Instr} (h : decodeCommand w = .operation i) : encode i = .cmd w := by
  rcases decodeCommand_cases w with ⟨op, low, hd⟩ | ⟨op, low, hd⟩ | ⟨op, low, hd⟩ | ⟨op, low, hd⟩ | ⟨op, low, hd⟩ |
      ⟨op, low, hd⟩ | ⟨op, low, hd⟩ | ⟨op, low, hd⟩ | ⟨op, hd⟩ <;>
    rw [hd] at h <;> cases h
  · exact (encode_nop_eq_cmd_iff w).mpr (by omega)
  · refine (encode_conv_eq_cmd_iff w _ _ _).mpr ?_
    simp only [field_toNat]
    omega
  · exact (encode_pub_eq_cmd_iff w).mpr (by omega)
  · refine (encode_pubc_eq_cmd_iff w _).mpr ?_
    rw [number_ofNumber, field_toNat]
    omega

/-- Settles O2: a command word is made up of what it decodes to; a strobe that decodes is at level 1. -/
theorem encodeOfDecodedIsTheWord : Obligations.EncodeOfDecodedIsTheWord := by
  intro p i h
  cases p with
  | cmd w => exact encode_of_decodeCommand h
  | tick level => obtain rfl := tick_level_of_decode h; cases h; rfl
  | rst level => obtain rfl := rst_level_of_decode h; cases h; rfl

/-- A port word decodes to an operation iff it is what presents it. -/
theorem decode_eq_operation_iff {p : PortWord} {i : Instr} : decode p = .operation i ↔ encode i = p :=
  ⟨encodeOfDecodedIsTheWord p i, fun h => h ▸ decodeOfEncodeIsTheOperation i⟩

/-! Masks: a mask whose low `k` bits are the zeros compares the word's quotient by `2 ^ k`. -/

theorem and_highMask_eq_iff (w : Word32) {k m : Nat} (hm : m * 2 ^ k < 2 ^ 32) :
    w &&& (BitVec.allOnes 32 <<< k) = BitVec.ofNat 32 (m * 2 ^ k) ↔ w.toNat / 2 ^ k = m := by
  have hw : w.toNat / 2 ^ k * 2 ^ k < 2 ^ 32 := (Nat.div_mul_le_self _ _).trans_lt w.isLt
  rw [← BitVec.shiftLeft_ushiftRight, ← BitVec.toNat_inj, BitVec.toNat_shiftLeft, BitVec.toNat_ushiftRight,
    BitVec.toNat_ofNat, Nat.shiftRight_eq_div_pow, Nat.shiftLeft_eq, Nat.mod_eq_of_lt hw, Nat.mod_eq_of_lt hm]
  exact Nat.mul_left_inj (by positivity)

/-- The mask and match of the row `CONV` (R65): opcode 1 and bit 27 zero. -/
theorem convMask_iff (w : Word32) : w &&& 0xF8000000 = 0x10000000 ↔ w.toNat / 2 ^ 27 = 2 :=
  and_highMask_eq_iff w (k := 27) (m := 2) (by omega)

/-- The mask and match of the row `PUBC` (R65): opcode 3 and bits 27:2 zero. -/
theorem pubcMask_iff (w : Word32) : w &&& 0xFFFFFFFC = 0x30000000 ↔ w.toNat / 2 ^ 2 = 3 * 2 ^ 26 :=
  and_highMask_eq_iff w (k := 2) (m := 0x0C000000) (by omega)

/-- A row with an all-ones mask selects its match alone. -/
theorem fullMask_iff (w m : Word32) : w &&& 0xFFFFFFFF = m ↔ w = m :=
  Eq.congr_left (BitVec.and_allOnes (x := w))

theorem decode_isConv_iff (w : Word32) :
    (∃ hue sat val, decode (.cmd w) = .operation (.conv hue sat val)) ↔ w.toNat / 2 ^ 27 = 2 := by
  constructor
  · rintro ⟨hue, sat, val, h⟩
    have number := (encode_conv_eq_cmd_iff w hue sat val).mp (decode_eq_operation_iff.mp h)
    omega
  · exact fun h => ⟨_, _, _, decodeCommand_of_convRow h⟩

theorem decode_isPubc_iff (w : Word32) :
    (∃ ch, decode (.cmd w) = .operation (.pubc ch)) ↔ w.toNat / 2 ^ 2 = 3 * 2 ^ 26 := by
  constructor
  · rintro ⟨ch, h⟩
    have number := (encode_pubc_eq_cmd_iff w ch).mp (decode_eq_operation_iff.mp h)
    omega
  · exact fun h => ⟨_, decodeCommand_of_pubcRow h⟩

/-- The full-mask rows: the word is the match. -/
theorem decode_eq_operation_iff_fullMask {i : Instr} {m : Word32} (hi : encode i = .cmd m) (w : Word32) :
    decode (.cmd w) = .operation i ↔ w &&& 0xFFFFFFFF = m := by
  rw [decode_eq_operation_iff, hi, PortWord.cmd.injEq, fullMask_iff]
  exact eq_comm

/-- A strobe port selects its row at level 1. -/
theorem level_and_one_iff (level : BitVec 1) : level &&& 0x1 = 0x1 ↔ 1 = level :=
  (Eq.congr_left (BitVec.and_allOnes (x := level))).trans eq_comm

/-- Settles O4: each row by the number that its mask compares, the strobes by their level. -/
theorem rowsSelectByMaskAndMatch : Obligations.RowsSelectByMaskAndMatch := by
  refine ⟨fun w => ⟨?nop, ?conv, ?pub, ?pubc, ?tick, ?reset⟩, fun level => ⟨?tickLevel, ?rstLevel⟩, ?examples⟩
  case nop => exact decode_eq_operation_iff_fullMask rfl w
  case conv => rw [decode_isConv_iff, convMask_iff]
  case pub => exact decode_eq_operation_iff_fullMask rfl w
  case pubc => rw [decode_isPubc_iff, pubcMask_iff]
  case tick => rw [Ne, decode_eq_operation_iff]; exact PortWord.noConfusion
  case reset => rw [Ne, decode_eq_operation_iff]; exact PortWord.noConfusion
  case tickLevel => rw [decode_eq_operation_iff, encode, PortWord.tick.injEq, level_and_one_iff]
  case rstLevel => rw [decode_eq_operation_iff, encode, PortWord.rst.injEq, level_and_one_iff]
  case examples => decide

/-- Settles O5: a word is what presents the operation iff its digits are the operand fields. -/
theorem operandFieldsOfCommandWords : Obligations.OperandFieldsOfCommandWords := by
  constructor
  · intro w hue sat val
    rw [decode_eq_operation_iff, encode_conv_eq_cmd_iff]
    omega
  · intro w ch
    rw [decode_eq_operation_iff, encode_pubc_eq_cmd_iff]
    cases ch <;> simp [Channel.number] <;> omega

/-- Settles O3: the decoder is evaluated on the nine words. -/
theorem specWordsDecode : Obligations.SpecWordsDecode := by
  unfold Obligations.SpecWordsDecode
  decide

/-! Reserved words. -/

/-- The numbers of the reserved words (R67): of the decoder's nine answers five are rejections. -/
theorem decodeCommand_rejected_iff (w : Word32) :
    (∃ why, decodeCommand w = .rejected why) ↔
      (4 ≤ w.toNat / 2 ^ 28) ∨
      ((w.toNat / 2 ^ 28 = 0 ∨ w.toNat / 2 ^ 28 = 2) ∧ w.toNat % 2 ^ 28 ≠ 0) ∨
      (w.toNat / 2 ^ 28 = 1 ∧ w.toNat / 2 ^ 27 % 2 = 1) ∨
      (w.toNat / 2 ^ 28 = 3 ∧ w.toNat / 2 ^ 2 % 2 ^ 26 ≠ 0) := by
  rcases decodeCommand_cases w with ⟨op, low, hd⟩ | ⟨op, low, hd⟩ | ⟨op, low, hd⟩ | ⟨op, low, hd⟩ | ⟨op, low, hd⟩ |
      ⟨op, low, hd⟩ | ⟨op, low, hd⟩ | ⟨op, low, hd⟩ | ⟨op, hd⟩ <;>
    simp only [hd, reduceCtorEq, exists_false, false_iff, Decoded.rejected.injEq, exists_eq', true_iff]
  all_goals omega

/-- Settles O6: which answers of the decoder are rejections, and that a rejected word and `NOP` both leave the state. -/
theorem reservedWordsChangeNothing : Obligations.ReservedWordsChangeNothing := by
  intro w
  refine ⟨decodeCommand_rejected_iff w, fun why h s => ?_⟩
  have unchanged := execWord_rejected h s
  exact ⟨unchanged, unchanged⟩

end Sys2Proof.Machine
end

section
/-! PROOFS. What stops a step: `CONV` with a hue out of range, and nothing else (R108, R150). -/

namespace Sys2Proof.Machine

/-- `CONV` is refused under a configuration iff the hue is out of range, and then by its name. -/
theorem execConvUnder_eq_refused {cfg : Config} {hue : HueField} {sat val : Byte} {s : State} {r : Refusal} :
    execConvUnder cfg hue sat val s = .refused r ↔ 1536 ≤ hue.toNat ∧ r = .hueOutOfRange hue := by
  by_cases h : hue.toNat ≤ 1535
  · obtain ⟨row, hrow⟩ := roleRow_of_hue hue h
    have inRange : ¬ 1536 ≤ hue.toNat := by omega
    simp [execConvUnder, convert_of_row cfg hue sat val hrow, inRange]
  · have outOfRange : 1536 ≤ hue.toNat := by omega
    simp [execConvUnder, convert, roleRow_of_hue_out hue (by omega), outOfRange, eq_comm]

/-- The one operation that can be refused. -/
theorem exec_refused_cases {i : Instr} {s : State} {r : Refusal} (h : exec i s = .refused r) :
    ∃ hue sat val, i = .conv hue sat val ∧ 1536 ≤ hue.toNat ∧ r = .hueOutOfRange hue := by
  cases i with
  | conv hue sat val => exact ⟨hue, sat, val, rfl, execConvUnder_eq_refused.mp h⟩
  | _ => cases h

/-- A refused port word is a command word: no strobe decodes to `CONV`. -/
theorem execWord_refused_cases {p : PortWord} {s : State} {r : Refusal} (h : execWord p s = .refused r) :
    ∃ w hue sat val, p = .cmd w ∧ decode (.cmd w) = .operation (.conv hue sat val) ∧ 1536 ≤ hue.toNat ∧
      r = .hueOutOfRange hue := by
  cases hd : decode p with
  | rejected why => rw [execWord_rejected hd] at h; cases h
  | operation i =>
    rw [execWord_operation hd] at h
    obtain ⟨hue, sat, val, rfl, hout, hr⟩ := exec_refused_cases h
    obtain rfl := encodeOfDecodedIsTheWord p _ hd
    exact ⟨_, hue, sat, val, rfl, hd, hout, hr⟩

/-- A sampling whose first port word is a command has no strobe (R71). -/
theorem takeFirst_eq_cmd {p : Sampling} {w : Word32} (h : p.takeFirst.1 = some (.cmd w)) :
    p.rst = false ∧ p.tick = false ∧ p.cmdValid = true ∧ p.cmd = w := by
  obtain ⟨rst, tick, cmdValid, cmd⟩ := p
  cases rst <;> cases tick <;> cases cmdValid <;> cases h
  exact ⟨rfl, rfl, rfl, rfl⟩

/-- A port word taken is the first of the oldest sampling. -/
theorem takeWord_eq_some {s : State} {w : PortWord} (h : s.takeWord.1 = some w) :
    ∃ p rest, s.inputs = p :: rest ∧ p.takeFirst.1 = some w := by
  cases hin : s.inputs with
  | nil => rw [takeWord_nil s hin] at h; cases h
  | cons p rest => rw [takeWord_cons hin] at h; exact ⟨p, rest, rfl, h⟩

/-- A step that is refused is the refusal of the port word taken. -/
theorem step_refused_cases {s : State} {r : Refusal} (h : step s = .refused r) :
    ∃ w, s.takeWord.1 = some w ∧ execWord w s.takeWord.2 = .refused r := by
  unfold step at h
  cases hw : s.takeWord.1 with
  | none => rw [portStep_of_none hw] at h; cases h
  | some w => exact ⟨w, rfl, (portStep_of_some hw).symm.trans h⟩

/-- Settles O54: the word taken is a command that decodes to `CONV` with the hue refused; the fault type is empty. -/
theorem onlyAnOutOfRangeHueStopsAStep : Obligations.OnlyAnOutOfRangeHueStopsAStep := by
  refine fun s => ⟨(nomatch ·), fun r h => ?_⟩
  obtain ⟨word, hword, hrefused⟩ := step_refused_cases h
  obtain ⟨w, hue, sat, val, rfl, hd, hout, hr⟩ := execWord_refused_cases hrefused
  obtain ⟨p, rest, hin, hfirst⟩ := takeWord_eq_some hword
  obtain ⟨hrst, htick, hvalid, rfl⟩ := takeFirst_eq_cmd hfirst
  exact ⟨hue, sat, val, p, rest, hr, hout, hin, hrst, htick, hvalid, hd⟩

/-- Settles O7: bits 26:25 are the two top bits of the hue; a hue they put out of range has no conversion. -/
theorem outOfRangeHueIsRefused : Obligations.OutOfRangeHueIsRefused := by
  refine ⟨fun w hrow hbits => ?_, fun hue sat val s hout => ?_⟩
  · have hconv := (convMask_iff w).mp hrow
    refine ⟨_, _, _, decodeCommand_of_convRow hconv, ?_⟩
    rw [field_toNat]
    omega
  · have refused (cfg : Config) : execConvUnder cfg hue sat val s = .refused (.hueOutOfRange hue) :=
      execConvUnder_eq_refused.mpr ⟨hout, rfl⟩
    exact ⟨refused machineConfig, refused⟩

end Sys2Proof.Machine
end

section
/-! PROOFS. A machine run over samplings is the run over the port words they flatten to (R71, R158, R159; assumption
logs 1 to 3). -/

namespace Sys2Proof.Machine

/-! Sequences of steps. -/

theorem andThen_assoc (o : Result) (f g : State → Result) :
    Result.andThen (Result.andThen o f) g = Result.andThen o (fun t => Result.andThen (f t) g) := by
  cases o <;> rfl

@[simp] theorem andThen_pure (o : Result) : Result.andThen o .next = o := by
  cases o <;> rfl

theorem execWords_cons (p : PortWord) (rest : List PortWord) (s : State) :
    execWords (p :: rest) s = Result.andThen (execWord p s) (execWords rest) := rfl

theorem execWords_singleton (p : PortWord) (s : State) : execWords [p] s = execWord p s :=
  andThen_pure _

theorem execWords_append (xs ys : List PortWord) (s : State) :
    execWords (xs ++ ys) s = Result.andThen (execWords xs s) (execWords ys) := by
  induction xs generalizing s with
  | nil => rfl
  | cons p rest ih => simp only [List.cons_append, execWords_cons, andThen_assoc, funext ih]

theorem runSteps_one (s : State) : runSteps 1 s = step s :=
  andThen_pure _

theorem runSteps_add (m n : Nat) (s : State) :
    runSteps (m + n) s = Result.andThen (runSteps m s) (runSteps n) := by
  induction m generalizing s with
  | zero => rw [Nat.zero_add]; rfl
  | succ m ih => simp only [Nat.succ_add, runSteps_succ, andThen_assoc, funext ih]

/-! No port word reads what the ports present next, or changes it (assumption log 1). -/

theorem execWord_withInputs (p : PortWord) (s : State) (q : List Sampling) :
    execWord p (s.withInputs q) = Result.andThen (execWord p s) (fun t => .next (t.withInputs q)) := by
  cases hd : decode p with
  | operation i => rw [execWord_operation hd, execWord_operation hd, exec_withInputs]
  | rejected why => rw [execWord_rejected hd, execWord_rejected hd, andThen_next]

theorem execWords_withInputs (ws : List PortWord) (s : State) (q : List Sampling) :
    execWords ws (s.withInputs q) = Result.andThen (execWords ws s) (fun t => .next (t.withInputs q)) := by
  induction ws generalizing s with
  | nil => rfl
  | cons p rest ih => simp only [execWords_cons, execWord_withInputs, andThen_assoc, andThen_next, ih]

/-! One step, by what the oldest sampling yields first. -/

theorem step_of_takeFirst_some {s : State} {p : Sampling} {rest left : List Sampling} {w : PortWord}
    (hin : s.inputs = p :: rest) (hp : p.takeFirst = (some w, left)) :
    step s = execWord w (s.withInputs (left ++ rest)) := by
  have htake := takeWord_cons hin
  rw [hp] at htake
  rw [step, portStep_of_some (congrArg Prod.fst htake), htake]

theorem step_of_takeFirst_none {s : State} {p : Sampling} {rest left : List Sampling}
    (hin : s.inputs = p :: rest) (hp : p.takeFirst = (none, left)) :
    step s = .next (s.withInputs (left ++ rest)) := by
  have htake := takeWord_cons hin
  rw [hp] at htake
  rw [step, portStep_of_none (congrArg Prod.fst htake), htake]

/-- A tick and a command in one sampling are two steps, the tick first (R158). -/
theorem runSteps_two_of_tick_and_command {s : State} {cmd : Word32} {rest : List Sampling}
    (hin : s.inputs = ⟨false, true, true, cmd⟩ :: rest) :
    runSteps 2 s = Result.andThen (exec .tick (s.withInputs rest)) (execWord (.cmd cmd)) := by
  have first : step s = .next (s.withInputs (⟨false, false, true, cmd⟩ :: rest)).ticked :=
    step_of_takeFirst_some hin rfl
  have second (t : State) (ht : t.inputs = ⟨false, false, true, cmd⟩ :: rest) :
      step t = execWord (.cmd cmd) (t.withInputs rest) := step_of_takeFirst_some ht rfl
  rw [runSteps_succ, first, andThen_next, runSteps_one, second _ rfl]
  rfl

/-- Settles O9: the ports that each clause fixes decide what the oldest sampling yields first. -/
theorem samplingYieldsItsSteps : Obligations.SamplingYieldsItsSteps := by
  rintro s ⟨rst, tick, cmdValid, cmd⟩ rest hin
  refine ⟨?reset, ?tick, ?command, ?tickCommand, ?idle⟩
  case reset => rintro rfl; exact step_of_takeFirst_some hin rfl
  case tick => rintro rfl rfl rfl; exact step_of_takeFirst_some hin rfl
  case command => rintro rfl rfl rfl; exact step_of_takeFirst_some hin rfl
  case tickCommand => rintro rfl rfl rfl; exact runSteps_two_of_tick_and_command hin
  case idle => rintro rfl rfl rfl; exact step_of_takeFirst_none hin rfl

/-- The steps of one sampling run the port words it yields, and leave the samplings after it. -/
theorem runSteps_stepCount {s : State} {p : Sampling} {rest : List Sampling} (hin : s.inputs = p :: rest) :
    runSteps p.stepCount s = execWords p.words (s.withInputs rest) := by
  obtain ⟨reset, tick, command, tickCommand, idle⟩ := samplingYieldsItsSteps s p rest hin
  have single (w : PortWord) (h : step s = execWord w (s.withInputs rest)) :
      runSteps 1 s = execWords [w] (s.withInputs rest) := by
    rw [runSteps_one, h, execWords_singleton]
  obtain ⟨rst, tickLevel, cmdValid, cmd⟩ := p
  match rst, tickLevel, cmdValid with
  | true, _, _ => exact single (.rst 1) (reset rfl)
  | false, true, false => exact single (.tick 1) (tick rfl rfl rfl)
  | false, false, true => exact single (.cmd cmd) (command rfl rfl rfl)
  | false, true, true =>
    exact (tickCommand rfl rfl rfl).trans (execWords_singleton (.cmd cmd) (s.withInputs rest).ticked).symm
  | false, false, false => exact (runSteps_one s).trans (idle rfl rfl rfl)

/-- Settles O11, by induction on the samplings: the first one's steps run its words, whatever is presented after it. -/
theorem machineRunIsTheFlattenedSequence : Obligations.MachineRunIsTheFlattenedSequence := by
  intro ps rest s
  induction ps generalizing s with
  | nil => rfl
  | cons p ps ih =>
    have first : runSteps p.stepCount (s.withInputs (p :: (ps ++ rest))) =
        execWords p.words (s.withInputs (ps ++ rest)) :=
      runSteps_stepCount rfl
    rw [List.map_cons, List.sum_cons, List.flatMap_cons, List.cons_append, runSteps_add, first, execWords_append]
    simp only [execWords_withInputs p.words, andThen_assoc, andThen_next, ih]

/-- Settles O10: with no sampling waiting a step takes nothing, so every step of the run leaves the state. -/
theorem idleBlockKeepsItsState : Obligations.IdleBlockKeepsItsState := by
  intro n s hin
  have idle : step s = .next s := by
    rw [step, portStep, takeWord_nil s hin]
  induction n with
  | zero => rfl
  | succ n ih => rw [runSteps_succ, idle, andThen_next, ih]

end Sys2Proof.Machine
end

section
/-! PROOFS. The kernel's arithmetic (R84 to R92): `BOT` and `FSCALE` are divisions by 255, and bounds and steps of the
three level indices (R86, R103). -/

namespace Sys2Proof.Machine

theorem fscale_eq (f : Nat) : fscale f = (f + f / 256) / 256 := by
  simp only [fscale, Nat.shiftRight_eq_div_pow, Nat.reducePow]

theorem rmp_eq (val fs : Nat) : rmp val fs = (val * (255 - fs) + val / 2) / 256 := by
  simp only [rmp, Nat.shiftRight_eq_div_pow, Nat.reducePow]

/-- `BOT` scales the product's successor as `FSCALE` scales the raw fraction (R84, R90). -/
theorem bot_eq_fscale (val sat : Nat) : bot val sat = fscale (val * (255 - sat) + 1) := rfl

/-! Scaling. -/

/-- The shift and add is exact division by 255, rounding down, of the number one below. -/
theorem fscale_succ {p : Nat} (hp : p ≤ 65279) : fscale (p + 1) = p / 255 := by
  rw [fscale_eq]; omega

theorem fscale_mono {f g : Nat} (h : f ≤ g) : fscale f ≤ fscale g := by
  rw [fscale_eq, fscale_eq]
  exact Nat.div_le_div_right (Nat.add_le_add h (Nat.div_le_div_right h))

theorem fscale_add_le {d : Nat} (hd : d ≤ 255) (f : Nat) : fscale (f + d) ≤ fscale f + 1 := by
  rw [fscale_eq, fscale_eq]; omega

/-- Scaling the largest raw fraction of a saturation gives the saturation. -/
theorem fscale_mul_256 {sat : Nat} (hs : sat ≤ 255) : fscale (256 * sat) = sat := by
  rw [fscale_eq]; omega

/-- The scaled fraction is at most the saturation (R103 c). -/
theorem fscale_fraw_le {sat fraction : Nat} (hs : sat ≤ 255) (hf : fraction ≤ 256) (parity : Nat) :
    fscale (fraw sat fraction parity) ≤ sat :=
  (fscale_mono (fraw_le sat fraction parity hf)).trans_eq (fscale_mul_256 hs)

/-! The bottom index. -/

/-- R86. -/
theorem bot_eq_div {val : Nat} (hv : val ≤ 255) (sat : Nat) : bot val sat = val * (255 - sat) / 255 := by
  have := product_le val (255 - sat) (Nat.sub_le ..)
  rw [bot_eq_fscale, fscale_succ (by omega)]

theorem bot_le {val : Nat} (hv : val ≤ 255) (sat : Nat) : bot val sat ≤ val := by
  have := product_le val (255 - sat) (Nat.sub_le ..)
  rw [bot_eq_div hv]; omega

/-! The ramp index. -/

/-- The ramp never reaches the top index (R103 d). -/
theorem rmp_le_pred (val fs : Nat) : rmp val fs ≤ val - 1 := by
  have := product_le val (255 - fs) (Nat.sub_le ..)
  rw [rmp_eq]; omega

/-- With a scaled fraction of 0 the ramp index is the last below the top (R101). -/
theorem rmp_zero_fraction {val : Nat} (hv : val ≤ 255) : rmp val 0 = val - 1 := by
  rw [rmp_eq]; omega

theorem rmp_anti (val : Nat) {fs gs : Nat} (h : fs ≤ gs) : rmp val gs ≤ rmp val fs := by
  have := Nat.mul_le_mul_left val (Nat.sub_le_sub_left h 255)
  rw [rmp_eq, rmp_eq]; omega

/-- One step of the scaled fraction takes at most `val`, less than 256, from the ramp's product. -/
theorem rmp_le_rmp_succ {val : Nat} (hv : val ≤ 255) {fs gs : Nat} (h : gs ≤ fs + 1) :
    rmp val fs ≤ rmp val gs + 1 := by
  have product : val * (255 - fs) ≤ val * (255 - gs) + val := by
    rw [← Nat.mul_succ]
    exact Nat.mul_le_mul_left val (by omega)
  rw [rmp_eq, rmp_eq]; omega

/-- The ramp is at most one step below the bottom (R103 e). -/
theorem bot_le_rmp_succ {val : Nat} (hv : val ≤ 255) {fs sat : Nat} (h : fs ≤ sat) : bot val sat ≤ rmp val fs + 1 := by
  have := product_le val (255 - sat) (Nat.sub_le ..)
  have := Nat.mul_le_mul_left val (Nat.sub_le_sub_left h 255)
  rw [bot_eq_div hv, rmp_eq]; omega

/-- Settles O38: the division is `bot_eq_div`; rounding to nearest differs from it by at most one. -/
theorem bottomIndexIsFloorDivision : Obligations.BottomIndexIsFloorDivision := by
  intro val sat p
  have floor : bot val.toNat sat.toNat = p / 255 := bot_eq_div (by omega) sat.toNat
  exact ⟨floor, by omega, by omega⟩

/-- The largest index is the top one, so each fits in a byte (R103 a, d). -/
theorem indexLevels_ofRole_le (hue : HueField) (sat val : Byte) (role : Role) :
    (indexLevels hue sat val).ofRole role ≤ val.toNat := by
  cases role with
  | top => exact le_rfl
  | ramp => exact (rmp_le_pred _ _).trans (Nat.sub_le ..)
  | bottom => exact bot_le (by omega) _

/-- No index is lost when it becomes a ROM address (R103 k). -/
theorem addressLevels_toNat (hue : HueField) (sat val : Byte) :
    (addressLevels hue sat val).map BitVec.toNat = indexLevels hue sat val := by
  have keep (role : Role) : (BitVec.ofNat 8 ((indexLevels hue sat val).ofRole role)).toNat =
      (indexLevels hue sat val).ofRole role :=
    (BitVec.toNat_ofNat ..).trans (Nat.mod_eq_of_lt ((indexLevels_ofRole_le hue sat val role).trans_lt val.isLt))
  exact Levels.mk.injEq .. |>.mpr ⟨keep .top, keep .ramp, keep .bottom⟩

/-- Settles O39, from the bounds of each index function. -/
theorem indicesStayInBounds : Obligations.IndicesStayInBounds := by
  intro hue sat val
  have scaled : fscale (fraw sat.toNat (fraction hue) (parity hue)) ≤ sat.toNat :=
    fscale_fraw_le (by omega) (fraction_lt hue).le _
  exact ⟨rfl, indexLevels_ofRole_le hue sat val .bottom, indexLevels_ofRole_le hue sat val .ramp,
    fun _ => rmp_le_pred _ _, bot_le_rmp_succ (by omega) scaled, scaled, addressLevels_toNat hue sat val⟩

/-! The ramp index along the fractions of a sextant. -/

theorem fraw_even_succ (sat : Nat) {fraction : Nat} (hf : fraction < 256) :
    fraw sat fraction 0 = fraw sat (fraction + 1) 0 + sat := by
  simp only [fraw, if_pos]
  rw [← Nat.mul_succ]
  congr 1
  omega

theorem fraw_odd_succ (sat fraction : Nat) : fraw sat (fraction + 1) 1 = fraw sat fraction 1 + sat := by
  simp only [fraw, if_neg, one_ne_zero, not_false_eq_true, Nat.mul_succ]

/-- Raising the raw fraction by at most 255 lowers the ramp index by 0 or 1. -/
theorem rmp_fscale_add {val d : Nat} (hv : val ≤ 255) (hd : d ≤ 255) (f : Nat) :
    rmp val (fscale (f + d)) ≤ rmp val (fscale f) ∧ rmp val (fscale f) ≤ rmp val (fscale (f + d)) + 1 :=
  ⟨rmp_anti val (fscale_mono (Nat.le_add_right f d)), rmp_le_rmp_succ hv (fscale_add_le hd f)⟩

/-- Settles O40: a step of the fraction moves the raw fraction by the saturation, down in an even sextant and up in an
odd one. -/
theorem rampMovesByAtMostOne : Obligations.RampMovesByAtMostOne := by
  intro val sat fr hfr even odd
  have step (f : Nat) := rmp_fscale_add (val := val.toNat) (d := sat.toNat) (by omega) (by omega) f
  obtain ⟨evenRises, evenLittle⟩ := fraw_even_succ sat.toNat (by omega : fr < 256) ▸ step (fraw sat.toNat (fr + 1) 0)
  obtain ⟨oddFalls, oddLittle⟩ := fraw_odd_succ sat.toNat fr ▸ step (fraw sat.toNat fr 1)
  exact ⟨evenRises, evenLittle, oddFalls, oddLittle⟩

end Sys2Proof.Machine
end

section
/-! PROOFS. The 16-bit datapath computes the kernel's numbers: none of its sums, products and differences wraps
(R104). -/

namespace Sys2Proof.Machine

@[simp] theorem widen_toNat (x : Byte) : (widen x).toNat = x.toNat :=
  BitVec.toNat_setWidth_of_le (by omega)

/-- The product of a byte and a factor of at most 256 fits in 16 bits. -/
theorem widen_mul_toNat (x : Byte) {y : BitVec 16} (hy : y.toNat ≤ 256) : (widen x * y).toNat = x.toNat * y.toNat := by
  have := Nat.mul_le_mul (show x.toNat ≤ 255 by omega) hy
  rw [BitVec.toNat_mul, widen_toNat, Nat.mod_eq_of_lt (by omega)]

theorem ushiftRight_eight_toNat (f : BitVec 16) : (f >>> 8).toNat = f.toNat / 256 := by
  rw [BitVec.toNat_ushiftRight, Nat.shiftRight_eq_div_pow]

/-- A difference from a number at least as large does not wrap. -/
theorem ofNat_sub_toNat {n : Nat} (hn : n < 2 ^ 16) {x : BitVec 16} (hx : x.toNat ≤ n) :
    (BitVec.ofNat 16 n - x).toNat = n - x.toNat := by
  have number : (BitVec.ofNat 16 n).toNat = n := Nat.mod_eq_of_lt hn
  rw [BitVec.toNat_sub_of_le (by rwa [BitVec.le_def, number]), number]

theorem fscale16_toNat {f : BitVec 16} (hf : f.toNat ≤ 65280) : (fscale16 f).toNat = fscale f.toNat := by
  have shift := ushiftRight_eight_toNat f
  rw [fscale16, fscale_eq, ushiftRight_eight_toNat, BitVec.toNat_add_of_lt (by omega), shift]

theorem bot16_toNat (val sat : Byte) : (bot16 val sat).toNat = bot val.toNat sat.toNat := by
  have complement : (widen (~~~sat)).toNat = 255 - sat.toNat := by
    rw [widen_toNat, BitVec.toNat_not]
  have product : (widen val * widen (~~~sat)).toNat = val.toNat * (255 - sat.toNat) := by
    rw [widen_mul_toNat val (by omega), complement]
  have bound := product_le val.toNat (255 - sat.toNat) (Nat.sub_le ..)
  have successor : (widen val * widen (~~~sat) + 1#16).toNat = val.toNat * (255 - sat.toNat) + 1 := by
    rw [BitVec.toNat_add_of_lt (by rw [product]; norm_num; omega), product]; rfl
  calc (bot16 val sat).toNat = (fscale16 (widen val * widen (~~~sat) + 1#16)).toNat := rfl
    _ = fscale (val.toNat * (255 - sat.toNat) + 1) := by rw [fscale16_toNat (by omega), successor]
    _ = bot val.toNat sat.toNat := (bot_eq_fscale ..).symm

theorem fraw16_toNat (sat fr : Byte) (odd : Bool) :
    (fraw16 sat fr odd).toNat = fraw sat.toNat fr.toNat odd.toNat := by
  have byte := widen_toNat fr
  cases odd with
  | true => exact (widen_mul_toNat sat (by omega)).trans (congrArg _ byte)
  | false =>
    have difference : (256#16 - widen fr).toNat = 256 - fr.toNat := by
      rw [ofNat_sub_toNat (by norm_num) (by omega), byte]
    exact (widen_mul_toNat sat (by omega)).trans (congrArg _ difference)

theorem rmp16_toNat (val : Byte) {fs : BitVec 16} (hfs : fs.toNat ≤ 255) :
    (rmp16 val fs).toNat = rmp val.toNat fs.toNat := by
  have complement : (255#16 - fs).toNat = 255 - fs.toNat := ofNat_sub_toNat (by norm_num) hfs
  have product : (widen val * (255#16 - fs)).toNat = val.toNat * (255 - fs.toNat) := by
    rw [widen_mul_toNat val (by omega), complement]
  have half : (widen val >>> 1).toNat = val.toNat / 2 := by
    rw [BitVec.toNat_ushiftRight, widen_toNat, Nat.shiftRight_eq_div_pow, pow_one]
  have bound := product_le val.toNat (255 - fs.toNat) (Nat.sub_le ..)
  rw [rmp16, rmp_eq, ushiftRight_eight_toNat, BitVec.toNat_add_of_lt (by omega), product, half]

/-- Settles O43: each function of the datapath on the bounds of what it is given (R104). -/
theorem sixteenBitDatapathAgrees : Obligations.SixteenBitDatapathAgrees := by
  intro val sat fr odd
  have raw := fraw16_toNat sat fr odd
  have rawBound := fraw_le sat.toNat fr.toNat odd.toNat (by omega)
  have scaled : (fscale16 (fraw16 sat fr odd)).toNat = fscale (fraw sat.toNat fr.toNat odd.toNat) := by
    rw [fscale16_toNat (by omega), raw]
  have scaledBound := fscale_fraw_le (sat := sat.toNat) (fraction := fr.toNat) (by omega) (by omega) odd.toNat
  exact ⟨bot16_toNat val sat, scaled, by rw [rmp16_toNat val (by omega), scaled]⟩

end Sys2Proof.Machine
end

section
/-! PROOFS. What `CONV` answers (R80 to R102): the three levels in the channels that the sextant's row assigns, and the
special cases of value 0 and of saturation 0. -/

namespace Sys2Proof.Machine

/-! The form of `CONV`, by the sextant's row. -/

/-- The levels are the ROM's bytes at the three indices (R83, R85, R93). -/
theorem dutyLevels_ofRole (curve : DimmingCurve) (hue : HueField) (sat val : Byte) (role : Role) :
    (dutyLevels curve hue sat val).ofRole role =
      curve.table (BitVec.ofNat 8 ((indexLevels hue sat val).ofRole role)) := by
  cases role <;> rfl

/-- The top level is looked up at the value itself (R83). -/
theorem dutyLevels_eq (curve : DimmingCurve) (hue : HueField) (sat val : Byte) :
    dutyLevels curve hue sat val =
      ⟨curve.table val,
        curve.table (BitVec.ofNat 8 (rmp val.toNat (fscale (fraw sat.toNat (fraction hue) (parity hue))))),
        curve.table (BitVec.ofNat 8 (bot val.toNat sat.toNat))⟩ := by
  simp [dutyLevels, addressLevels, indexLevels, Levels.map, romRead]

/-- `CONV` on the machine, for its row of the channel table. -/
theorem exec_conv_of_row {hue : HueField} {row : PerChannel Role} (hrow : roleRow (sextant hue) = some row)
    (sat val : Byte) (s : State) :
    exec (.conv hue sat val) s = .next (s.withRes (assign row (dutyLevels machineConfig.curve hue sat val))) :=
  execConv_eq_next.mpr ⟨_, convert_machine hue sat val hrow, rfl⟩

theorem roleRow_lt {n : Nat} {row : PerChannel Role} (h : roleRow n = some row) : n < 6 := by
  have := roleRow_isSome n
  simpa [h] using this

/-- Settles O29: the conversion exists for a hue in range alone; the example's value and saturation are not 0, so it is
general in both modes. -/
theorem convWritesTheConversion : Obligations.ConvWritesTheConversion := by
  refine ⟨fun hue sat val s hhue => ?inRange, fun hue sat val s hout => ?outOfRange, ?word,
    fun cfg identity => ?identityCurve⟩
  case inRange =>
    obtain ⟨row, hrow⟩ := roleRow_of_hue hue hhue
    exact ⟨_, exec_conv_of_row hrow sat val s, convert_machine hue sat val hrow, rfl, rfl, rfl⟩
  case outOfRange => exact execConvUnder_eq_refused.mpr ⟨hout, rfl⟩
  case word => exact decode_encode_conv 0 200 255
  case identityCurve =>
    obtain ⟨curve, mode⟩ := cfg
    have general : convert ⟨curve, mode⟩ 0 200 255 = convert ⟨curve, .fallThrough⟩ 0 200 255 := by
      cases mode with
      | fallThrough => rfl
      | shortCircuit => exact convert_shortCircuit curve 0 (.inl (by decide))
    have levels : dutyLevels curve 0 200 255 = ⟨255, 55, 55⟩ := by
      rw [dutyLevels_eq, identity, identity, identity]; decide
    rw [general, convert_of_row _ 0 200 255 rfl, convertRow, levels]
    rfl

/-- Settles O30: in each sextant the row is the table's, and the levels are the kernel's numbers. -/
theorem convComputesTheLevels : Obligations.ConvComputesTheLevels := by
  intro hue sat val s hhue
  obtain ⟨row, hrow⟩ := roleRow_of_hue hue hhue
  refine ⟨_, exec_conv_of_row hrow sat val s, ?_⟩
  intro sx fr p bottomIdx f fs rampIdx top bottom ramp
  have levels : dutyLevels machineConfig.curve hue sat val = ⟨top, ramp, bottom⟩ := by
    have hf : fraw sat.toNat (fraction hue) (parity hue) = f := by
      rw [parity, sextant_eq]; rfl
    have hb : bot val.toNat sat.toNat = bottomIdx := by rw [bot_eq_fscale, fscale_eq]
    rw [dutyLevels_eq, hb, hf, fscale_eq, rmp_eq]
    rfl
  have result (n : Nat) (tableRow : PerChannel Role) (hn : roleRow n = some tableRow) (hsx : sx = n) :
      assign row (dutyLevels machineConfig.curve hue sat val) = assign tableRow ⟨top, ramp, bottom⟩ := by
    rw [sextant_eq, show hue.toNat / 256 = n from hsx, hn] at hrow
    rw [levels, Option.some.inj hrow]
  exact ⟨result 0 _ rfl, result 1 _ rfl, result 2 _ rfl, result 3 _ rfl, result 4 _ rfl, result 5 _ rfl⟩

/-- White, and the colour channel that a sextant leaves at the bottom level (R94, R95). -/
theorem roleRow_bottom {n : Nat} {row : PerChannel Role} (h : roleRow n = some row) :
    row.w = .bottom ∧ (n < 2 → row.b = .bottom) ∧ (2 ≤ n → n < 4 → row.r = .bottom) ∧ (4 ≤ n → row.g = .bottom) := by
  have := roleRow_lt h
  interval_cases n <;> obtain rfl := Option.some.inj h <;> simp

theorem assign_w {α : Type} {n : Nat} {row : PerChannel Role} (h : roleRow n = some row) (l : Levels α) :
    (assign row l).w = l.bottom :=
  congrArg l.ofRole (roleRow_bottom h).1

/-- Settles O31: channels with the same role get the same level. -/
theorem whiteIsTheBottomLevel : Obligations.WhiteIsTheBottomLevel := by
  intro hue sat val s hhue
  obtain ⟨row, hrow⟩ := roleRow_of_hue hue hhue
  obtain ⟨white, blue, red, green⟩ := roleRow_bottom hrow
  rw [sextant_eq] at blue red green
  have twin {role : Role} (h : role = .bottom) : (dutyLevels machineConfig.curve hue sat val).ofRole row.w =
      (dutyLevels machineConfig.curve hue sat val).ofRole role := by rw [white, h]
  exact ⟨_, exec_conv_of_row hrow sat val s, assign_w hrow _, fun h => twin (blue (by omega)),
    fun h h' => twin (red (by omega) (by omega)), fun h => twin (green (by omega))⟩

/-- Settles O32: the result is a function of the operands. -/
theorem convReadsNoState : Obligations.ConvReadsNoState := by
  intro hue sat val s u hhue
  obtain ⟨row, hrow⟩ := roleRow_of_hue hue hhue
  exact ⟨_, _, exec_conv_of_row hrow sat val s, exec_conv_of_row hrow sat val u, rfl⟩

/-! The corner cases. -/

/-- Settles O34: at value 0 all three indices are 0, and the ROM holds 0 there. -/
theorem zeroValueIsDark : Obligations.ZeroValueIsDark := by
  intro cfg hue sat hhue
  obtain ⟨row, hrow⟩ := roleRow_of_hue hue hhue
  have indices : indexLevels hue sat 0 = ⟨0, 0, 0⟩ := by simp [indexLevels]
  have general (curve : DimmingCurve) : convert ⟨curve, .fallThrough⟩ hue sat 0 = some (.all 0) := by
    rw [convert_of_row _ _ _ _ hrow, convertRow, dutyLevels_zero_value, assign_same]
  obtain ⟨curve, mode⟩ := cfg
  constructor
  · rw [indexTuple, hrow, indices, ← assign_same row]
  · cases mode with
    | fallThrough => exact general curve
    | shortCircuit => rw [convert_shortCircuit curve hue (.inr rfl), general]

/-- A grey in `SHORTCIRCUIT` mode is the raw value, 0 included (R99). -/
theorem convert_shortCircuit_grey (curve : DimmingCurve) {hue : HueField} (hhue : hue.toNat ≤ 1535) (val : Byte) :
    convert ⟨curve, .shortCircuit⟩ hue 0 val = some (.all val) := by
  obtain ⟨row, hrow⟩ := roleRow_of_hue hue hhue
  rw [convert_of_row _ _ _ _ hrow]
  by_cases hv : val = 0
  · simp only [convertRow, hv, if_pos]
  · simp only [convertRow, if_neg hv, if_pos]

/-- At saturation 0 the bottom index is the value and the ramp index one below (R101). -/
theorem indexLevels_zero_saturation (hue : HueField) (val : Byte) :
    indexLevels hue 0 val = ⟨val.toNat, val.toNat - 1, val.toNat⟩ := by
  have bottom : bot val.toNat 0 = val.toNat := by rw [bot_eq_div (by omega)]; omega
  have raw : fraw 0 (fraction hue) (parity hue) = 0 := Nat.le_zero.mp (fraw_le 0 _ _ (fraction_lt hue).le)
  have ramp : rmp val.toNat 0 = val.toNat - 1 := rmp_zero_fraction (by omega)
  simp [indexLevels, raw, bottom, ramp, fscale]

/-- Settles O35: with equal top and bottom level only the place of the ramp tells the sextants apart. -/
theorem zeroSaturationKeepsTheRamp : Obligations.ZeroSaturationKeepsTheRamp := by
  intro curve hue val hhue sx full below
  have levels : dutyLevels curve hue 0 val = ⟨full, below, full⟩ := by
    rw [dutyLevels, addressLevels, indexLevels_zero_saturation]
    simp [Levels.map, romRead, full, below]
  have result (n : Nat) {row : PerChannel Role} (hn : roleRow n = some row) (hsx : sx = n) :
      convert ⟨curve, .fallThrough⟩ hue 0 val = some (assign row ⟨full, below, full⟩) := by
    have hrow : roleRow (sextant hue) = some row := by rw [sextant_eq, ← hn, ← hsx]
    rw [convert_of_row _ _ _ _ hrow, convertRow, levels]
  exact ⟨indexLevels_zero_saturation hue val, fun h => h.elim (result 0 rfl) (result 3 rfl),
    fun h => h.elim (result 1 rfl) (result 4 rfl), fun h => h.elim (result 2 rfl) (result 5 rfl), convert_shortCircuit_grey curve hhue val⟩

/-- Settles O36: the two special cases give one byte in every channel, and elsewhere the modes agree. -/
theorem shortCircuitMode : Obligations.ShortCircuitMode := by
  intro curve hue sat val s hhue
  obtain ⟨row, hrow⟩ := roleRow_of_hue hue hhue
  have hconvert := convert_of_row ⟨curve, .shortCircuit⟩ hue sat val hrow
  refine ⟨_, execConvUnder_eq_next.mpr ⟨_, hconvert, rfl⟩, fun hv => ?_, fun hv hs => ?_, fun hv hs => ?_⟩
  · simp only [convertRow, if_pos hv]
  · simp only [convertRow, if_neg hv, if_pos hs]
  · rw [← convert_shortCircuit curve hue (.inl hs), hconvert]

/-- Settles O56: the raw value passes through `RES` and `DUTY` into the comparators. -/
theorem shortCircuitGreyReachesTheOutputs : Obligations.ShortCircuitGreyReachesTheOutputs := by
  intro curve hue val s hhue
  have conv : execUnder ⟨curve, .shortCircuit⟩ (.conv hue 0 val) s = .next (s.withRes (.all val)) :=
    execConvUnder_eq_next.mpr ⟨_, convert_shortCircuit_grey curve hhue val, rfl⟩
  refine ⟨((s.withRes (.all val)).withDuty (.all val)).ticked, ?_, rfl, rfl, nextCount_toNat s.tickcnt, fun c => ?_⟩
  · rw [execAllUnder_cons, conv]
    rfl
  · rw [State.ticked_out_get, dutyExceeds_iff, State.ticked_tickcnt, nextCount_toNat, State.withDuty_duty,
      PerChannel.get_all]
    rfl

/-! Full saturation and value at the sextant boundaries (R102). -/

theorem romByte_zero : romByte 0 = 0 := machineConfig.curve.first

theorem romByte_top : romByte 255 = 255 := machineConfig.curve.last

/-- `CONV` whose ROM addresses are known. -/
theorem exec_conv_of_addresses {hue : HueField} {sat val : Byte} {row : PerChannel Role} {l : Levels Byte}
    (hrow : roleRow (sextant hue) = some row) (hl : addressLevels hue sat val = l) (s : State) :
    exec (.conv hue sat val) s = .next (s.withRes (assign row (l.map romByte))) := by
  rw [exec_conv_of_row hrow, dutyLevels, hl]
  rfl

/-- Settles O37: the bottom address is 0 at all six boundaries; the ramp's is 0 in an even sextant and 254 in an odd
one. -/
theorem sextantBoundaryColours : Obligations.SextantBoundaryColours := by
  intro s
  have even (hue : HueField) {row : PerChannel Role} (hrow : roleRow (sextant hue) = some row)
      (hl : addressLevels hue 255 255 = ⟨255, 0, 0⟩) :
      exec (.conv hue 255 255) s = .next (s.withRes (assign row ⟨255, 0, 0⟩)) := by
    rw [exec_conv_of_addresses hrow hl, Levels.map, romByte_top, romByte_zero]
  have odd (hue : HueField) {row : PerChannel Role} (hrow : roleRow (sextant hue) = some row)
      (hl : addressLevels hue 255 255 = ⟨255, 254, 0⟩) :
      exec (.conv hue 255 255) s = .next (s.withRes (assign row ⟨255, romByte 254, 0⟩)) := by
    rw [exec_conv_of_addresses hrow hl, Levels.map, romByte_top, romByte_zero]
  exact ⟨even 0 rfl (by decide), odd 256 rfl (by decide), even 512 rfl (by decide), odd 768 rfl (by decide),
    even 1024 rfl (by decide), odd 1280 rfl (by decide)⟩

/-! The range of the bytes written (R106). -/

/-- The curve does not fall (R27 a). -/
theorem table_mono (curve : DimmingCurve) {i j : Nat} (hij : i ≤ j) (hj : j ≤ 255) :
    (curve.table (BitVec.ofNat 8 i)).toNat ≤ (curve.table (BitVec.ofNat 8 j)).toNat := by
  induction j, hij using Nat.le_induction with
  | base => exact le_rfl
  | succ j _ ih => exact (ih (by omega)).trans (curve.rising j (by omega))

/-- No index is further below the bottom index than one (R103 e). -/
theorem bottom_pred_le_indexLevels (hue : HueField) (sat val : Byte) (role : Role) :
    max (indexLevels hue sat val).bottom 1 - 1 ≤ (indexLevels hue sat val).ofRole role := by
  obtain ⟨top, bottom, -, -, ramp, -, -⟩ := indicesStayInBounds hue sat val
  cases role with
  | top => simp only [Levels.ofRole, top]; omega
  | ramp => simp only [Levels.ofRole]; omega
  | bottom => simp only [Levels.ofRole]; omega

/-- Settles O42: every byte is the curve at an index between the two bounds, and the curve does not fall. -/
theorem conversionStaysInRange : Obligations.ConversionStaysInRange := by
  intro hue sat val s hhue
  obtain ⟨row, hrow⟩ := roleRow_of_hue hue hhue
  refine ⟨_, exec_conv_of_row hrow sat val s, assign_w hrow _, fun c => ?_⟩
  have below_top := table_mono machineConfig.curve (indexLevels_ofRole_le hue sat val (row.get c)) (by omega)
  have above_bottom := table_mono machineConfig.curve (bottom_pred_le_indexLevels hue sat val (row.get c))
    ((indexLevels_ofRole_le hue sat val (row.get c)).trans (by omega))
  rw [BitVec.ofNat_toNat, BitVec.setWidth_eq] at below_top
  rw [State.withRes_res, assign_get, dutyLevels_ofRole]
  exact ⟨⟨_, rfl⟩, below_top, above_bottom⟩

end Sys2Proof.Machine
end

section
/-! PROOFS. Continuity in hue, in the index domain (R105). Inside a sextant only the ramp moves. At a boundary the ramp
channel and a channel of another level exchange their roles, and there the ramp index is near that level: the top one on
leaving an even sextant, the bottom one on leaving an odd sextant. -/

namespace Sys2Proof.Machine

/-- Two indices at most `k` apart. -/
def Within (k a b : Nat) : Prop := a ≤ b + k ∧ b ≤ a + k

theorem Within.refl (k a : Nat) : Within k a a := ⟨Nat.le_add_right a k, Nat.le_add_right a k⟩

theorem Within.symm {k a b : Nat} (h : Within k a b) : Within k b a := And.symm h

theorem Within.mono {j k a b : Nat} (hjk : j ≤ k) (h : Within j a b) : Within k a b :=
  ⟨h.1.trans (Nat.add_le_add_left hjk b), h.2.trans (Nat.add_le_add_left hjk a)⟩

/-! The channel table (R94), row by row. -/

/-- The channel that ramps in a sextant. -/
def rampChannel (n : Nat) : Channel :=
  match n % 3 with
  | 0 => .g
  | 1 => .r
  | _ => .b

theorem roleRow_ramp_iff {n : Nat} {row : PerChannel Role} (h : roleRow n = some row) (c : Channel) :
    row.get c = .ramp ↔ c = rampChannel n := by
  have := roleRow_lt h
  interval_cases n <;> cases h <;> cases c <;> decide

/-- The level that the ramp reaches at the end of a sextant, where it changes places with it. -/
def endRole (n : Nat) : Role := if n % 2 = 0 then .top else .bottom

/-- From one row to the next a channel keeps a role other than the ramp, or gives the ramp for `x`, or gets it for
`x`. -/
abbrev RampPasses (x old new : Role) : Prop :=
  (old = new ∧ old ≠ .ramp) ∨ (old = .ramp ∧ new = x) ∨ (old = x ∧ new = .ramp)

theorem roleRow_succ {n : Nat} {row next : PerChannel Role} (hrow : roleRow n = some row)
    (hnext : roleRow ((n + 1) % 6) = some next) (c : Channel) :
    RampPasses (endRole n) (row.get c) (next.get c) := by
  have := roleRow_lt hrow
  interval_cases n <;> cases hrow <;> cases hnext <;> cases c <;> decide

/-! From a hue to the next. -/

theorem hue_succ_inside {hue next : HueField} (h : next.toNat = (hue.toNat + 1) % 1536) (hhue : hue.toNat ≤ 1535)
    (inside : hue.toNat % 256 ≠ 255) : sextant next = sextant hue ∧ fraction next = fraction hue + 1 := by
  simp only [sextant_eq, fraction]; omega

theorem hue_succ_boundary {hue next : HueField} (h : next.toNat = (hue.toNat + 1) % 1536)
    (boundary : hue.toNat % 256 = 255) :
    sextant next = (sextant hue + 1) % 6 ∧ fraction hue = 255 ∧ fraction next = 0 := by
  simp only [sextant_eq, fraction]; omega

/-! The levels. -/

/-- Of the indices only the ramp's depends on the hue (R83, R84). -/
theorem indexLevels_ofRole_eq (hue next : HueField) (sat val : Byte) {role : Role} (h : role ≠ .ramp) :
    (indexLevels hue sat val).ofRole role = (indexLevels next sat val).ofRole role := by
  cases role with
  | ramp => exact absurd rfl h
  | _ => rfl

/-- Near the bottom: a scaled fraction at most one below the saturation puts the ramp index within 2 of the bottom. -/
theorem rmp_within_bot {val sat fs : Nat} (hv : val ≤ 255) (hle : fs ≤ sat) (hge : sat ≤ fs + 1) :
    Within 2 (rmp val fs) (bot val sat) := by
  have one_step : rmp val fs ≤ rmp val sat + 1 := rmp_le_rmp_succ hv hge
  have at_sat : rmp val sat ≤ bot val sat + 1 := by
    have := product_le val (255 - sat) (Nat.sub_le ..)
    rw [bot_eq_div hv, rmp_eq]; omega
  exact ⟨by omega, (bot_le_rmp_succ hv hle).trans (by omega)⟩

/-- With a scaled fraction of 0 on leaving an even sextant, and of nearly the saturation on leaving an odd one, the ramp
index is near the level at the end of the sextant. -/
theorem rmp_within_endRole {n fs : Nat} (hue : HueField) {sat val : Byte} (even : n % 2 = 0 → fs = 0)
    (odd : n % 2 = 1 → fs ≤ sat.toNat ∧ sat.toNat ≤ fs + 1) :
    Within (1 + n % 2) (rmp val.toNat fs) ((indexLevels hue sat val).ofRole (endRole n)) := by
  rcases Nat.mod_two_eq_zero_or_one n with hn | hn
  · rw [endRole, if_pos hn, hn, even hn, rmp_zero_fraction (by omega)]
    show Within 1 (val.toNat - 1) val.toNat
    exact ⟨by omega, by omega⟩
  · obtain ⟨hle, hge⟩ := odd hn
    rw [endRole, if_neg (by omega), hn]
    exact rmp_within_bot (by omega) hle hge

/-- The scaled fractions on the two sides of a boundary: 0 where an even sextant ends (fractions 255 and 0), and nearly
the saturation where an odd one ends. -/
theorem fscale_fraw_boundary (sat : Nat) (hs : sat ≤ 255) :
    fscale (fraw sat 255 0) = 0 ∧ fscale (fraw sat 0 1) = 0 ∧
      sat ≤ fscale (fraw sat 255 1) + 1 ∧ sat ≤ fscale (fraw sat 0 0) + 1 := by
  simp only [fraw, fscale_eq, if_pos, if_neg, one_ne_zero, not_false_eq_true]
  omega

/-- At the last fraction of a sextant the ramp is near the level that its channel goes to. -/
theorem ramp_within_leaving {hue : HueField} (hf : fraction hue = 255) (sat val : Byte) :
    Within (1 + parity hue) (indexLevels hue sat val).ramp
      ((indexLevels hue sat val).ofRole (endRole (sextant hue))) := by
  obtain ⟨even, -, odd, -⟩ := fscale_fraw_boundary sat.toNat (by omega)
  have scaled := fscale_fraw_le (sat := sat.toNat) (by omega) (fraction_lt hue).le (parity hue)
  apply rmp_within_endRole hue
  · intro hp
    rw [hf, parity, hp, even]
  · intro hp
    rw [hf, parity, hp] at scaled ⊢
    exact ⟨scaled, odd⟩

/-- At the first fraction of a sextant the ramp is near the level that its channel comes from. -/
theorem ramp_within_entering {n : Nat} {next : HueField} (hn : sextant next = (n + 1) % 6) (hf : fraction next = 0)
    (sat val : Byte) :
    Within (1 + n % 2) (indexLevels next sat val).ramp ((indexLevels next sat val).ofRole (endRole n)) := by
  obtain ⟨-, even, -, odd⟩ := fscale_fraw_boundary sat.toNat (by omega)
  have scaled := fscale_fraw_le (sat := sat.toNat) (by omega) (fraction_lt next).le (parity next)
  apply rmp_within_endRole next
  · intro hp
    rw [hf, show parity next = 1 by rw [parity, hn]; omega, even]
  · intro hp
    rw [hf, show parity next = 0 by rw [parity, hn]; omega] at scaled ⊢
    exact ⟨scaled, odd⟩

/-- Inside a sextant the ramp moves by at most 1 (R103 f). -/
theorem ramp_within_inside {hue next : HueField} (hs : sextant next = sextant hue)
    (hf : fraction next = fraction hue + 1) (sat val : Byte) :
    Within 1 (indexLevels hue sat val).ramp (indexLevels next sat val).ramp := by
  have := fraction_lt next
  obtain ⟨evenRises, evenLittle, oddFalls, oddLittle⟩ := rampMovesByAtMostOne val sat (fraction hue) (by omega)
  simp only [indexLevels, parity, hs, hf]
  rcases Nat.mod_two_eq_zero_or_one (sextant hue) with hp | hp <;> rw [hp]
  · exact ⟨evenRises.trans (Nat.le_succ _), evenLittle⟩
  · exact ⟨oddLittle, oddFalls.trans (Nat.le_succ _)⟩

/-! The index tuples. -/

theorem indexTuple_of_row {hue : HueField} {row : PerChannel Role} (h : roleRow (sextant hue) = some row)
    (sat val : Byte) : indexTuple hue sat val = some (assign row (indexLevels hue sat val)) := by
  rw [indexTuple, h]

/-- Across a boundary every channel keeps its level or exchanges it for a near one. -/
theorem indices_within_boundary {hue next : HueField} {row nextRow : PerChannel Role}
    (hrow : roleRow (sextant hue) = some row) (hnextRow : roleRow (sextant next) = some nextRow)
    (hs : sextant next = (sextant hue + 1) % 6) (hleave : fraction hue = 255) (henter : fraction next = 0)
    (sat val : Byte) (c : Channel) :
    Within (1 + parity hue) ((assign row (indexLevels hue sat val)).get c)
      ((assign nextRow (indexLevels next sat val)).get c) := by
  have levelThere : endRole (sextant hue) ≠ .ramp := by
    unfold endRole; split <;> exact Role.noConfusion
  rw [assign_get, assign_get]
  rcases roleRow_succ hrow (hs ▸ hnextRow) c with ⟨same, level⟩ | ⟨old, new⟩ | ⟨old, new⟩
  · rw [← same, indexLevels_ofRole_eq hue next sat val level]
    exact .refl _ _
  · rw [old, new, ← indexLevels_ofRole_eq hue next sat val levelThere]
    exact ramp_within_leaving hleave sat val
  · rw [old, new, indexLevels_ofRole_eq hue next sat val levelThere]
    exact (ramp_within_entering hs henter sat val).symm

/-- Inside a sextant every channel but the ramp's keeps its index. -/
theorem indices_eq_inside {hue : HueField} {row : PerChannel Role} (hrow : roleRow (sextant hue) = some row)
    (next : HueField) (sat val : Byte) {c : Channel} (hc : c ≠ rampChannel (sextant hue)) :
    (assign row (indexLevels hue sat val)).get c = (assign row (indexLevels next sat val)).get c := by
  rw [assign_get, assign_get]
  exact indexLevels_ofRole_eq hue next sat val (mt (roleRow_ramp_iff hrow c).mp hc)

theorem indices_within_inside {hue next : HueField} {row : PerChannel Role} (hrow : roleRow (sextant hue) = some row)
    (hs : sextant next = sextant hue) (hf : fraction next = fraction hue + 1) (sat val : Byte) (c : Channel) :
    Within 1 ((assign row (indexLevels hue sat val)).get c) ((assign row (indexLevels next sat val)).get c) := by
  by_cases hc : c = rampChannel (sextant hue)
  · rw [assign_get, assign_get, (roleRow_ramp_iff hrow c).mpr hc]
    exact ramp_within_inside hs hf sat val
  · rw [indices_eq_inside hrow next sat val hc]
    exact .refl _ _

/-- Settles O41: inside a sextant the ramp channel alone moves; at a boundary the channels that exchange roles move, by 1
from an even sextant and by at most 2 from an odd one. -/
theorem hueStepMovesTheIndicesLittle : Obligations.HueStepMovesTheIndicesLittle := by
  refine ⟨fun hue next sat val hhue hnext => ?_, by decide⟩
  obtain ⟨row, hrow⟩ := roleRow_of_hue hue hhue
  obtain ⟨nextRow, hnextRow⟩ := roleRow_of_hue next (by omega)
  refine ⟨_, _, indexTuple_of_row hrow sat val, indexTuple_of_row hnextRow sat val, ?_⟩
  by_cases boundary : hue.toNat % 256 = 255
  · obtain ⟨hs, hleave, henter⟩ := hue_succ_boundary hnext boundary
    have near := indices_within_boundary hrow hnextRow hs hleave henter sat val
    have parity_le : parity hue ≤ 1 := Nat.le_of_lt_succ (Nat.mod_lt _ Nat.two_pos)
    have even (h : hue.toNat % 512 ≠ 511) : parity hue = 0 := by
      rw [parity, sextant_eq]; omega
    exact ⟨fun c => (near c).mono (by omega), fun h c => (near c).mono (by rw [even h]), fun h => absurd boundary h⟩
  · obtain ⟨hs, hf⟩ := hue_succ_inside hnext hhue boundary
    obtain rfl : row = nextRow := Option.some.inj (hrow.symm.trans (hs ▸ hnextRow))
    have near := indices_within_inside hrow hs hf sat val
    exact ⟨fun c => (near c).mono one_le_two, fun _ => near,
      fun _ => ⟨rampChannel (sextant hue), fun _ => indices_eq_inside hrow next sat val⟩⟩

end Sys2Proof.Machine
end

section
/-! PROOFS. The publications (R110 to R115): what one copies and what it leaves, the field-by-field form against the
atomic one, and the tick that shows what was published (R184). -/

namespace Sys2Proof.Machine

/-- Field writes run, and write nothing but `DUTY`: of the channels named the result byte, of the others the old one. -/
theorem execAll_pubc (cs : List Channel) (s : State) :
    ∃ q, execAll (cs.map .pubc) s = .next (s.withDuty q) ∧
      ∀ c, q.get c = if c ∈ cs then s.res.get c else s.duty.get c := by
  obtain ⟨t, ht, hbytes⟩ := execAll_publishesOrTicks (ops := cs.map .pubc) (by simp [PublishesOrTicks]) s
  have frame : t.withDuty s.duty = s := by
    refine execAll_keeps (P := fun u => u.withDuty s.duty = s) (fun i hi u v hu hv => ?_) rfl ht
    obtain ⟨ch, -, rfl⟩ := List.mem_map.mp hi
    cases hv
    exact hu
  refine ⟨t.duty, ?_, fun c => ?_⟩
  · rw [ht, ← frame]
    rfl
  · simp [hbytes, byteAfter]

/-- Settles O18: whatever the order, every channel is named. -/
theorem fieldWritesInAnyOrderArePub : Obligations.FieldWritesInAnyOrderArePub := by
  intro order s horder
  obtain ⟨q, hq, hbytes⟩ := execAll_pubc order s
  have every (c : Channel) : c ∈ order := horder.mem_iff.mpr (by cases c <;> decide)
  have published : q = s.res := PerChannel.ext_get fun c => by rw [hbytes, if_pos (every c)]
  rw [hq, published]
  rfl

/-- Settles O14: `NOP` answers the state it is given. -/
theorem nopLeavesTheState : Obligations.NopLeavesTheState :=
  ⟨decodeOfEncodeIsTheOperation .nop, fun _ => rfl⟩

/-- Settles O15: the next state is the old one with `RES` in `DUTY`. -/
theorem pubCopiesAllFourRegisters : Obligations.PubCopiesAllFourRegisters :=
  ⟨decodeOfEncodeIsTheOperation .pub, fun s => ⟨s.withDuty s.res, rfl, fun _ => rfl, rfl, rfl, rfl⟩⟩

/-- Settles O16: the encoder's word is the number, and of the registers only the one of the channel written differs. -/
theorem pubcCopiesOneRegister : Obligations.PubcCopiesOneRegister := by
  intro ch
  refine ⟨⟨0x3#4 ++ 0#26 ++ ch.number, decode_encode_pubc ch, ?word⟩, fun s =>
    ⟨s.withDuty (s.duty.set ch (s.res.get ch)), rfl, PerChannel.get_set_same .., fun c other => ?others, rfl, rfl, rfl⟩⟩
  case word => cases ch <;> rfl
  case others => exact PerChannel.get_set_other _ _ other

/-- Settles O19: the conversion passes through `RES` into `DUTY`, and only the tick writes `OUT`. -/
theorem publicationShowsAtTheNextTick : Obligations.PublicationShowsAtTheNextTick := by
  intro hue sat val s hhue
  obtain ⟨q, hq⟩ := Option.isSome_iff_exists.mp
    ((convert_isSome machineConfig hue sat val).trans (decide_eq_true hhue))
  have conv : exec (.conv hue sat val) s = .next (s.withRes q) := execConv_eq_next.mpr ⟨q, hq, rfl⟩
  refine ⟨q, (s.withRes q).withDuty q, ((s.withRes q).withDuty q).ticked, hq, ?published, rfl, rfl, rfl,
    fun c => ?shown⟩
  case published =>
    rw [convPub, execAll_cons, conv]
    rfl
  case shown => rw [State.ticked_out_get, dutyExceeds_iff, gt_iff_lt, State.withDuty_duty]

end Sys2Proof.Machine
end

section
/-! PROOFS. What a tick does to the counter and the outputs (R120 to R131), how many of a run of ticks leave an output
high (R125, R187), and that between ticks the outputs hold (R128). Consecutive ticks are `State.ticked` iterated. -/

namespace Sys2Proof.Machine

/-! One tick. -/

/-- A tick leaves an output high iff the duty is above the incremented counter (R121, R122). -/
theorem State.ticked_out_get_iff (s : State) (c : Channel) :
    s.ticked.out.get c = true ↔ (s.tickcnt.toNat + 1) % 256 < (s.duty.get c).toNat := by
  rw [State.ticked_out_get, dutyExceeds_iff, State.ticked_tickcnt, nextCount_toNat]

/-- Settles O20: the next state is `s.ticked`. -/
theorem tickCountsAndCompares : Obligations.TickCountsAndCompares :=
  fun s => ⟨s.ticked, rfl, nextCount_toNat s.tickcnt, s.ticked_out_get_iff, rfl, rfl⟩

theorem not_dutyExceeds_zero (count : Byte) : dutyExceeds 0 count = false := by
  simp [dutyExceeds]

theorem not_dutyExceeds_top (duty : Byte) : dutyExceeds duty 255 = false :=
  decide_eq_false (Nat.le_of_lt_succ duty.isLt).not_gt

theorem top_dutyExceeds_iff (count : Byte) : dutyExceeds 255 count = true ↔ count ≠ 255 := by
  have := count.isLt
  rw [dutyExceeds_iff, ne_eq, ← BitVec.toNat_inj]
  change count.toNat < 255 ↔ ¬count.toNat = 255
  omega

/-- Settles O21: 0 is above no count, and 255 is above every count but 255. -/
theorem endsOfTheDutyRange : Obligations.EndsOfTheDutyRange := by
  refine fun s c => ⟨s.ticked, rfl, fun hzero => ?_, fun htop => ?_⟩
  · rw [State.ticked_out_get, hzero, not_dutyExceeds_zero]
  · rw [State.ticked_out_get, htop, top_dutyExceeds_iff]

/-- Settles O25: the count grows by one except at the wrap, so only there can it come to lie below a duty, and a step
from below a duty to not below it ends at the duty. -/
theorem outputsRiseAtTheWrapOnly : Obligations.OutputsRiseAtTheWrapOnly := by
  intro s c hout
  have before : s.out.get c = true ↔ s.tickcnt.toNat < (s.duty.get c).toNat := by
    rw [hout, comparators, PerChannel.get_map, dutyExceeds_iff]
  have after := s.ticked_out_get_iff c
  have count : s.ticked.tickcnt.toNat = (s.tickcnt.toNat + 1) % 256 := nextCount_toNat s.tickcnt
  have duty_lt := (s.duty.get c).isLt
  refine ⟨s.ticked, rfl, fun wasLow isHigh => ?_, fun wasHigh isLow => ?_⟩ <;> apply BitVec.eq_of_toNat_eq
  · have below := after.mp isHigh
    have notBelow := mt before.mpr (Bool.eq_false_iff.mp wasLow)
    change s.ticked.tickcnt.toNat = 0
    omega
  · have below := before.mp wasHigh
    have notBelow := mt after.mpr (Bool.eq_false_iff.mp isLow)
    omega

/-! Consecutive ticks. -/

theorem afterTicks_eq_iterate (n : Nat) (s : State) : afterTicks n s = .next (State.ticked^[n] s) := by
  induction n generalizing s with
  | zero => rfl
  | succ n ih => exact ih s.ticked

/-- What a tick leaves as it was, any number of ticks do. -/
theorem iterate_ticked_keeps {α : Type} {f : State → α} (keep : ∀ s, f s.ticked = f s) (n : Nat) (s : State) :
    f (State.ticked^[n] s) = f s := by
  induction n generalizing s with
  | zero => rfl
  | succ n ih => exact (ih s.ticked).trans (keep s)

@[simp] theorem iterate_ticked_res (n : Nat) (s : State) : (State.ticked^[n] s).res = s.res :=
  iterate_ticked_keeps State.ticked_res n s

@[simp] theorem iterate_ticked_duty (n : Nat) (s : State) : (State.ticked^[n] s).duty = s.duty :=
  iterate_ticked_keeps State.ticked_duty n s

/-- The counter counts ticks modulo 256 (R131). -/
@[simp] theorem iterate_ticked_tickcnt_toNat (n : Nat) (s : State) :
    (State.ticked^[n] s).tickcnt.toNat = (s.tickcnt.toNat + n) % 256 := by
  induction n generalizing s with
  | zero => exact (Nat.mod_eq_of_lt s.tickcnt.isLt).symm
  | succ n ih =>
    rw [Function.iterate_succ_apply, ih, State.ticked_tickcnt, nextCount_toNat]
    omega

/-- Settles O22: the outputs are those of the last tick. -/
theorem counterCountsTicks : Obligations.CounterCountsTicks := by
  refine fun n s => ⟨State.ticked^[n] s, afterTicks_eq_iterate n s, iterate_ticked_tickcnt_toNat n s,
    iterate_ticked_res n s, iterate_ticked_duty n s, iterate_ticked_keeps State.ticked_inputs n s, fun hn c => ?_⟩
  obtain ⟨m, rfl⟩ := Nat.exists_eq_add_of_lt hn
  rw [Nat.zero_add, Function.iterate_succ_apply', State.ticked_out_get_iff, iterate_ticked_tickcnt_toNat,
    iterate_ticked_duty, Nat.mod_add_mod, Nat.add_assoc, gt_iff_lt]

/-! High ticks. -/

theorem highTicks_succ (ch : Channel) (n : Nat) (s : State) :
    highTicks ch (n + 1) s = (if s.ticked.out.get ch then 1 else 0) + highTicks ch n s.ticked := rfl

theorem highTicks_add (ch : Channel) (m n : Nat) (s : State) :
    highTicks ch (m + n) s = highTicks ch m s + highTicks ch n (State.ticked^[m] s) := by
  induction m generalizing s with
  | zero => rw [Nat.zero_add, highTicks, Nat.zero_add, Function.iterate_zero_apply]
  | succ m ih => rw [Nat.succ_add, highTicks_succ, highTicks_succ, ih, Function.iterate_succ_apply, Nat.add_assoc]

/-- Over ticks that set the counter to `first`, `first + 1`, … with no wrap after the first, the output is high until
the counter reaches the duty. -/
theorem highTicks_within_period {ch : Channel} {n first : Nat} {s : State}
    (hfirst : (s.tickcnt.toNat + 1) % 256 = first) (hn : first + n ≤ 256) :
    highTicks ch n s = min n ((s.duty.get ch).toNat - first) := by
  induction n generalizing s first with
  | zero => rw [highTicks, Nat.zero_min]
  | succ n ih =>
    have duty_lt := (s.duty.get ch).isLt
    have later : highTicks ch n s.ticked = min n ((s.duty.get ch).toNat - (first + 1) % 256) := by
      refine ih ?_ (by omega)
      rw [State.ticked_tickcnt, nextCount_toNat, hfirst]
    simp only [highTicks_succ, later, State.ticked_out_get_iff, hfirst]
    split <;> omega

/-- The ticks from any count up to the top of the period. -/
theorem highTicks_to_top {ch : Channel} {first : Nat} {s : State} (hfirst : (s.tickcnt.toNat + 1) % 256 = first) :
    highTicks ch (256 - first) s = (s.duty.get ch).toNat - first := by
  have duty_lt := (s.duty.get ch).isLt
  rw [highTicks_within_period hfirst (by omega)]
  omega

/-- Settles O23: the ticks up to the top of the count and then, from the wrap, those up to the old count. -/
theorem dutyIsRealisedOverAPeriod : Obligations.DutyIsRealisedOverAPeriod := by
  refine fun s ch => ⟨?_, State.ticked^[256] s, afterTicks_eq_iterate 256 s, iterate_ticked_duty 256 s, ?_⟩
  · generalize hfirst : (s.tickcnt.toNat + 1) % 256 = first
    have first_lt : first < 256 := hfirst ▸ Nat.mod_lt _ (by decide)
    have wrap : ((State.ticked^[256 - first] s).tickcnt.toNat + 1) % 256 = 0 := by
      rw [iterate_ticked_tickcnt_toNat]
      omega
    calc highTicks ch 256 s
        = highTicks ch (256 - first + first) s := by rw [Nat.sub_add_cancel first_lt.le]
      _ = ((s.duty.get ch).toNat - first) + min first (s.duty.get ch).toNat := by
        rw [highTicks_add, highTicks_to_top hfirst, highTicks_within_period wrap (by omega), iterate_ticked_duty,
          Nat.sub_zero]
      _ = (s.duty.get ch).toNat := by omega
  · apply BitVec.eq_of_toNat_eq
    rw [iterate_ticked_tickcnt_toNat, Nat.add_mod_right, Nat.mod_eq_of_lt s.tickcnt.isLt]

/-- Settles O24: both parts lie in one period, of which the first starts at the wrap and the second at count `k`. -/
theorem dutyChangeInsideAPeriod : Obligations.DutyChangeInsideAPeriod := by
  intro s ch k hwrap hk
  have count : s.tickcnt.toNat = 255 := congrArg BitVec.toNat hwrap
  have before : highTicks ch k s = min k (s.duty.get ch).toNat :=
    highTicks_within_period (first := 0) (by rw [count]) (by omega)
  refine ⟨before, State.ticked^[k] s, _, afterTicks_eq_iterate k s, rfl, ?_⟩
  rcases hk.lt_or_eq with hlt | rfl
  · rw [highTicks_to_top]
    · rw [State.withDuty_duty, PerChannel.get_set_same, iterate_ticked_res]
    · rw [State.withDuty_tickcnt, iterate_ticked_tickcnt_toNat, count]
      omega
  · have := (s.res.get ch).isLt
    rw [Nat.sub_self, highTicks]
    omega

/-! Between ticks, and at the top of the count. -/

/-- An operation that is neither a tick nor a reset leaves outputs and counter (R54, R128). -/
theorem exec_keeps_outputs {i : Instr} (hi : ¬(i = .tick ∨ i = .reset)) {s t : State} (h : exec i s = .next t) :
    t.out = s.out ∧ t.tickcnt = s.tickcnt := by
  obtain ⟨-, -, countOwners, outOwners, -⟩ := registersChangeOnlyByTheirOwners i s t h
  exact ⟨of_not_not (mt outOwners hi), of_not_not (mt countOwners hi)⟩

/-- Settles O26: each operation of the list keeps outputs and counter. -/
theorem outputsHoldBetweenTicks : Obligations.OutputsHoldBetweenTicks := by
  intro ops s t hops h
  refine execAll_keeps (P := fun u => u.out = s.out ∧ u.tickcnt = s.tickcnt) ?_ ⟨rfl, rfl⟩ h
  rintro i hi u v ⟨sameOut, sameCount⟩ hv
  obtain ⟨hout, hcount⟩ := exec_keeps_outputs (not_or.mpr (hops i hi)) hv
  exact ⟨hout.trans sameOut, hcount.trans sameCount⟩

/-- No duty is above the top of the count (R126). -/
theorem comparators_top (duty : PerChannel Byte) : comparators duty 255 = .all false := by
  apply PerChannel.ext_get
  intro c
  rw [comparators, PerChannel.get_map, not_dutyExceeds_top, PerChannel.get_all]

theorem exec_keeps_darkAtTop (i : Instr) (s t : State) (hs : s.DarkAtTop) (h : exec i s = .next t) : t.DarkAtTop := by
  by_cases hi : i = .tick ∨ i = .reset
  · rcases hi with rfl | rfl <;> cases h
    · intro htop
      rw [State.ticked_out, ← State.ticked_tickcnt, htop, comparators_top]
    · exact fun _ => rfl
  · obtain ⟨hout, hcount⟩ := exec_keeps_outputs hi h
    rwa [State.DarkAtTop, hout, hcount]

/-- Settles O51: every operation keeps the top dark, so every machine step does. -/
theorem stepKeepsTheTopDark : Obligations.StepKeepsTheTopDark :=
  fun _ _ => step_keeps (P := State.DarkAtTop) (fun _ _ => id) exec_keeps_darkAtTop

end Sys2Proof.Machine
end

section
/-! PROOFS. While the environment presents legal words only, no step stops (R130, R145, R151). Legality is a property of
the port words that the waiting samplings flatten to, and a step only takes the oldest of these. -/

namespace Sys2Proof.Machine

/-- If every step from a state with a property answers a next state with it, so does every run. -/
theorem repeatStep_runs_keeping {one : State → Result} {P : State → Prop}
    (run : ∀ s, P s → ∃ t, one s = .next t ∧ P t) (n : Nat) {s : State} (hs : P s) :
    ∃ t, repeatStep one n s = .next t ∧ P t := by
  induction n generalizing s with
  | zero => exact ⟨s, rfl, hs⟩
  | succ n ih =>
    obtain ⟨u, hu, hPu⟩ := run s hs
    obtain ⟨t, ht, hPt⟩ := ih hPu
    exact ⟨t, andThen_eq_next.mpr ⟨u, hu, ht⟩, hPt⟩

theorem inputsLegal_iff (s : State) :
    s.inputsLegal = true ↔ ∀ w ∈ s.inputs.flatMap Sampling.words, wordLegal w = true := by
  rw [State.inputsLegal, ← List.all_eq_true, List.all_flatMap]
  rfl

/-- A legal word is an operation in range, which runs. -/
theorem execWord_legal_next {w : PortWord} (h : wordLegal w = true) (s : State) : ∃ t, execWord w s = .next t := by
  unfold wordLegal at h
  cases hd : decode w with
  | operation i =>
    rw [hd] at h
    rw [execWord_operation hd]
    exact exec_wellFormed_next i s h
  | rejected why => rw [hd] at h; cases h

theorem step_legal_next {s : State} (h : s.inputsLegal = true) : ∃ t, step s = .next t := by
  cases hw : s.takeWord.1 with
  | none => exact ⟨_, portStep_of_none hw⟩
  | some w =>
    have legal : wordLegal w = true := by
      refine (inputsLegal_iff s).mp h w ?_
      rw [inputs_words_eq_takeWord, hw]
      exact List.mem_cons_self
    rw [step, portStep_of_some hw]
    exact execWord_legal_next legal _

theorem step_keeps_inputsLegal {s t : State} (hs : s.inputsLegal = true) (h : step s = .next t) :
    t.inputsLegal = true := by
  rw [inputsLegal_iff] at hs ⊢
  rw [← stepUnder_machineConfig] at h
  intro w hw
  refine hs w ?_
  rw [inputs_words_eq_takeWord]
  exact List.mem_append_right _ (stepUnder_next_inputs h ▸ hw)

/-- Settles O53: the invariant is legality of what is still to come together with holding conversions. -/
theorem legalInputsNeverStopTheMachine : Obligations.LegalInputsNeverStopTheMachine := by
  intro n s hlegal hconv
  refine repeatStep_runs_keeping (P := fun u => u.inputsLegal = true ∧ u.HoldsConversions) ?_ n ⟨hlegal, hconv⟩
  rintro u ⟨hu, hcu⟩
  obtain ⟨t, ht⟩ := step_legal_next hu
  exact ⟨t, ht, step_keeps_inputsLegal hu ht, stepKeepsConversionResults u t hcu ht⟩

end Sys2Proof.Machine
end

section
/-! PROOFS. Ticks among the host's operations (R142, R160): a tick writes the counter and the outputs, and what an
operation does to the registers of the host reads neither. -/

namespace Sys2Proof.Machine

/-- Two states that agree in what a tick leaves as it was: `RES`, `DUTY` and the samplings still to come. -/
def SameData (s u : State) : Prop := u.res = s.res ∧ u.duty = s.duty ∧ u.inputs = s.inputs

/-- An operation runs equally from states with the same data, and leaves the same data. -/
theorem exec_sameData {i : Instr} {s t u : State} (hR : SameData s u) (h : exec i s = .next t) :
    ∃ v, exec i u = .next v ∧ SameData t v := by
  obtain ⟨hres, hduty, hin⟩ := hR
  cases i with
  | conv hue sat val =>
    obtain ⟨q, hq, rfl⟩ := execConv_eq_next.mp h
    exact ⟨u.withRes q, execConv_eq_next.mpr ⟨q, hq, rfl⟩, rfl, hduty, hin⟩
  | nop => cases h; exact ⟨u, rfl, hres, hduty, hin⟩
  | pub => cases h; exact ⟨_, rfl, hres, hres, hin⟩
  | pubc ch => cases h; exact ⟨_, rfl, hres, by simp [hres, hduty], hin⟩
  | tick => cases h; exact ⟨_, rfl, hres, hduty, hin⟩
  | reset => cases h; exact ⟨_, rfl, rfl, rfl, hin⟩

/-- A run of the host's operations is matched by the run with ticks among them. -/
theorem TicksAmong.run_sameData {ops merged : List Instr} {n : Nat} (hmix : TicksAmong ops n merged) {s t u : State}
    (hR : SameData s u) (h : execAll ops s = .next t) : ∃ v, execAll merged u = .next v ∧ SameData t v := by
  induction hmix generalizing s u with
  | done => cases h; exact ⟨u, rfl, hR⟩
  | host _ ih =>
    obtain ⟨s', hs, hrest⟩ := andThen_eq_next.mp h
    obtain ⟨u', hu, hR'⟩ := exec_sameData hR hs
    obtain ⟨v, hv, hRv⟩ := ih hR' hrest
    exact ⟨v, andThen_eq_next.mpr ⟨u', hu, hv⟩, hRv⟩
  | tick _ ih => exact ih (u := u.ticked) hR h

/-- Among operations that do not write the counter, it counts the ticks alone (R131). -/
theorem TicksAmong.run_tickcnt {ops merged : List Instr} {n : Nat} (hmix : TicksAmong ops n merged)
    (hops : ∀ i ∈ ops, i ≠ .tick ∧ i ≠ .reset) {u v : State} (h : execAll merged u = .next v) :
    v.tickcnt.toNat = (u.tickcnt.toNat + n) % 256 := by
  induction hmix generalizing u with
  | done => cases h; exact (Nat.mod_eq_of_lt v.tickcnt.isLt).symm
  | @host i _ _ _ _ ih =>
    obtain ⟨hi, hrest⟩ := List.forall_mem_cons.mp hops
    obtain ⟨u', hu, hrun⟩ := andThen_eq_next.mp h
    obtain ⟨-, same⟩ := exec_keeps_outputs (not_or.mpr hi) hu
    rw [ih hrest hrun, same]
  | tick _ ih =>
    rw [ih hops (u := u.ticked) h, State.ticked_tickcnt, nextCount_toNat]
    omega

/-- Settles O48: the run with the ticks matches the host's in its data, and counts the ticks. -/
theorem ticksLeaveTheHostsData : Obligations.TicksLeaveTheHostsData := by
  intro ops merged n s t hmix h
  obtain ⟨u, hu, hres, hduty, hin⟩ := hmix.run_sameData ⟨rfl, rfl, rfl⟩ h
  exact ⟨u, hu, hres, hduty, hin, fun hops => hmix.run_tickcnt hops hu⟩

end Sys2Proof.Machine
end

section
/-! PROOFS. The reference host (R135 to R143): its hue, what its iterations leave, and the source's scenario. -/

namespace Sys2Proof.Machine

/-! The Animator's variable and constants. -/

@[simp] theorem Animator.afterIterations_hueStep (a : Animator) (n : Nat) :
    (a.afterIterations n).hueStep = a.hueStep := by
  induction n with
  | zero => rfl
  | succ n ih => exact ih

theorem Animator.advance_hue_le (a : Animator) : a.advance.hue ≤ 1535 :=
  Nat.le_of_lt_succ (Nat.mod_lt _ (by decide))

/-- The first of `n + 1` iterations, then the others. -/
theorem Animator.advance_afterIterations (a : Animator) (n : Nat) :
    a.advance.afterIterations n = a.afterIterations (n + 1) := by
  induction n with
  | zero => rfl
  | succ n ih => exact congrArg Animator.advance ih

/-- Each reduction modulo 1536 can be left to the last one. -/
theorem Animator.afterIterations_hue {a : Animator} (ha : a.hue < 1536) (n : Nat) :
    (a.afterIterations n).hue = (a.hue + n * a.hueStep) % 1536 := by
  induction n with
  | zero => rw [Nat.zero_mul, Nat.add_zero, Nat.mod_eq_of_lt ha]; rfl
  | succ n ih =>
    calc (a.afterIterations (n + 1)).hue
        = ((a.afterIterations n).hue + (a.afterIterations n).hueStep) % 1536 := rfl
      _ = (a.hue + (n + 1) * a.hueStep) % 1536 := by
        rw [ih, afterIterations_hueStep, Nat.mod_add_mod, Nat.succ_mul, Nat.add_assoc]

/-- Settles O58: a remainder modulo 1536 is at most 1535. -/
theorem animatorHueAfterIterations : Obligations.AnimatorHueAfterIterations := by
  intro n a ha
  obtain ⟨hhue, -⟩ : a.hue < 1536 ∧ a.hueStep < 1536 := by simpa [Animator.inRange] using ha
  have value := a.afterIterations_hue hhue n
  exact ⟨value, by omega⟩

/-! What its operations do. -/

/-- Either publication is one copy of `RES` into `DUTY` (R115). -/
theorem Publication.execAll_ops (how : Publication) (s : State) : execAll how.ops s = .next (s.withDuty s.res) := by
  cases how with
  | fieldByField => exact fieldWritesInAnyOrderArePub [.r, .g, .b, .w] s (.refl _)
  | atomic => rfl

/-- The iteration of an advanced Animator leaves its conversion in `RES` and in `DUTY`, and nothing else. -/
theorem Animator.execAll_issue {a : Animator} (ha : a.hue ≤ 1535) (how : Publication) (s : State) :
    ∃ q, convert machineConfig (BitVec.ofNat 11 a.hue) a.sat0 a.val0 = some q ∧
      execAll (a.issue how) s = .next ((s.withRes q).withDuty q) := by
  have hue_toNat : (BitVec.ofNat 11 a.hue).toNat = a.hue := Nat.mod_eq_of_lt (by omega)
  obtain ⟨q, hq⟩ := Option.isSome_iff_exists.mp
    ((convert_isSome machineConfig _ a.sat0 a.val0).trans (decide_eq_true (hue_toNat.trans_le ha)))
  exact ⟨q, hq, andThen_eq_next.mpr ⟨s.withRes q, execConv_eq_next.mpr ⟨q, hq, rfl⟩, how.execAll_ops _⟩⟩

/-- Every iteration writes over what the one before it left, so the last conversion stays. -/
theorem Animator.execAll_animate_succ (how : Publication) (n : Nat) (a : Animator) (s : State) :
    ∃ q, convert machineConfig (BitVec.ofNat 11 (a.afterIterations (n + 1)).hue) a.sat0 a.val0 = some q ∧
      execAll (Animator.animate how (n + 1) a) s = .next ((s.withRes q).withDuty q) := by
  induction n generalizing a s with
  | zero =>
    rw [animate, animate, List.append_nil]
    exact execAll_issue a.advance_hue_le how s
  | succ n ih =>
    obtain ⟨p, -, first⟩ := execAll_issue a.advance_hue_le how s
    obtain ⟨q, hq, others⟩ := ih a.advance ((s.withRes p).withDuty p)
    rw [advance_afterIterations] at hq
    rw [animate, execAll_append, first]
    exact ⟨q, hq, others⟩

/-- Settles O59: `RES` and `DUTY` hold the last conversion, and no other field was written. -/
theorem animatorPublishesTheLastConversion : Obligations.AnimatorPublishesTheLastConversion := by
  intro how n a s _ hn
  obtain ⟨m, rfl⟩ := Nat.exists_eq_succ_of_ne_zero hn.ne'
  obtain ⟨q, hq, hrun⟩ := a.execAll_animate_succ how m s
  exact ⟨_, hrun, hq, rfl, rfl, rfl, rfl⟩

/-- Settles O60: the two hues by the general formula; hue 1535 lies in sextant 5. -/
theorem scenarioOf307Iterations : Obligations.ScenarioOf307Iterations := by
  have hue (n : Nat) : (Animator.scenario.afterIterations n).hue = (0 + n * 5) % 1536 :=
    Animator.afterIterations_hue (by decide) n
  have row : roleRow (sextant 1535) = some ⟨.top, .bottom, .ramp, .bottom⟩ := rfl
  have addresses : addressLevels 1535 200 255 = ⟨255, 56, 55⟩ := by decide
  exact ⟨hue 307, hue 308, decode_encode_conv 1535 200 255, by decide, by decide,
    exec_conv_of_addresses row addresses⟩

end Sys2Proof.Machine
end

section
/-! PROOFS. Ticks after `RESET` (R176, R177): they are ticks from the cleared registers, which stay dark (R114) while the
counter counts from 0. -/

namespace Sys2Proof.Machine

theorem execAll_reset_ticks (n : Nat) (s : State) :
    execAll (.reset :: ticks n) s = .next (State.ticked^[n] s.clearRegisters) :=
  afterTicks_eq_iterate n s.clearRegisters

theorem iterate_ticked_clearRegisters_out (n : Nat) (s : State) :
    (State.ticked^[n] s.clearRegisters).out = .all false := by
  have onlyTicks : ∀ i ∈ ticks n, i = .nop ∨ i = .tick ∨ i = .pub ∨ ∃ ch, i = .pubc ch :=
    fun i hi => .inr (.inl (List.eq_of_mem_replicate hi))
  obtain ⟨t, ht, -, -, hout⟩ := publishBeforeConvertIsDark (ticks n) s onlyTicks
  cases (execAll_reset_ticks n s).symm.trans ht
  exact hout

theorem iterate_ticked_clearRegisters_tickcnt (n : Nat) (s : State) :
    (State.ticked^[n] s.clearRegisters).tickcnt = BitVec.ofNat 8 n := by
  apply BitVec.eq_of_toNat_eq
  rw [iterate_ticked_tickcnt_toNat, State.clearRegisters_tickcnt]
  simp

/-- Settles O28: after `n` ticks the counter is `n` modulo 256, which is not 0 for `n` between 0 and 256. -/
theorem ticksAfterResetStayDark : Obligations.TicksAfterResetStayDark := by
  intro n s
  refine ⟨_, execAll_reset_ticks n s, iterate_ticked_clearRegisters_out n s, ?_⟩
  rw [iterate_ticked_clearRegisters_tickcnt]
  refine ⟨fun first => first ▸ rfl, fun pos lt wrapped => ?_, fun period => period ▸ rfl⟩
  have multiple : n % 256 = 0 := congrArg BitVec.toNat wrapped
  omega

end Sys2Proof.Machine
end
